-- ==== Sys2Proof/Word.lean ====
section
/-! DEFINITION. The word types of the machine: 16-bit words, 8-bit characters, 3-bit register numbers,
and the two extensions of a field to a word (spec 00_scope.md R6 to R9). -/

namespace Sys2Proof

/-- A 16-bit value: a register, a memory cell, an address or an instruction (00 R7). `+` on it wraps
modulo 65536, `&&&` is the bitwise AND and `~~~` the bitwise complement (00 R7, R9). -/
abbrev Word := BitVec 16

/-- An 8-bit character, and the 8-bit trap vector (15_interfaces.md R52; 45_trap.md R180). -/
abbrev Byte := BitVec 8

/-- A register number: "always a 3-bit field of the instruction, so it is always in range" (10_state.md R21). -/
abbrev Reg := BitVec 3

end Sys2Proof
end

