-- ==== Sys2Proof/Config.lean ====
section
/-! DEFINITION. The parameters of the machine (spec 00_scope.md R5), as the fields of one structure: every row of the
spec's parameter table that is marked GK or "parameter". Their values stand in `Sys2Proof/Machine/Params.lean`. The machine
leaves no value free (10_state.md R38), so there is no opaque constant. -/

namespace Sys2Proof

/-- `OP_*`: the sixteen opcode values (30_encoding.md R104, D6). The value `jsr` is the one JSR and JSRR share. -/
structure OpcodeValues where
  /-- `OP_BR`. -/
  br : BitVec 4
  /-- `OP_ADD`. -/
  add : BitVec 4
  /-- `OP_LD`. -/
  ld : BitVec 4
  /-- `OP_ST`. -/
  st : BitVec 4
  /-- `OP_JSR`. -/
  jsr : BitVec 4
  /-- `OP_AND`. -/
  and : BitVec 4
  /-- `OP_LDR`. -/
  ldr : BitVec 4
  /-- `OP_STR`. -/
  str : BitVec 4
  /-- `OP_RTI`. -/
  rti : BitVec 4
  /-- `OP_NOT`. -/
  not : BitVec 4
  /-- `OP_LDI`. -/
  ldi : BitVec 4
  /-- `OP_STI`. -/
  sti : BitVec 4
  /-- `OP_JMP`. -/
  jmp : BitVec 4
  /-- `OP_RES`. -/
  res : BitVec 4
  /-- `OP_LEA`. -/
  lea : BitVec 4
  /-- `OP_TRAP`. -/
  trap : BitVec 4
  deriving DecidableEq, Repr

/-- The field positions that the document does not give (30 R102, D7), each as the number of the field's lowest bit; a
field's width is fixed by its type. The other positions are the document's own and stand in `Sys2Proof/Decode.lean`. -/
structure FieldPositions where
  /-- `DR`. -/
  dr : Nat
  /-- `SR` of the stores. -/
  sr : Nat
  /-- `SR1`. -/
  sr1 : Nat
  /-- `BaseR` of LDR and STR. -/
  baseR : Nat
  /-- `SR2`. -/
  sr2 : Nat
  /-- `imm5`. -/
  imm5 : Nat
  /-- `offset6`. -/
  offset6 : Nat
  /-- `PCoffset9`. -/
  pcOffset9 : Nat
  /-- `PCoffset11`. -/
  pcOffset11 : Nat
  /-- `n`. -/
  n : Nat
  /-- `z`. -/
  z : Nat
  /-- `p`. -/
  p : Nat
  deriving DecidableEq, Repr

/-- The machine's parameters, one field per row of the table of 00_scope.md R5 that is not fixed by the document. -/
structure Config where
  /-- `OP_*` (D6). -/
  op : OpcodeValues
  /-- The field positions (D7). -/
  pos : FieldPositions
  /-- `PC_RESET`: the program counter at machine start (D4). -/
  pcReset : Word
  /-- `FL_POS`: COND when the last flagged value was positive (D5). -/
  flPos : Word
  /-- `FL_ZRO`: COND when the last flagged value was zero; also COND at reset (D5, 90_conflicts.md C3). -/
  flZro : Word
  /-- `FL_NEG`: COND when the last flagged value had bit 15 set (D5). -/
  flNeg : Word
  /-- `KBSR_ADDR`: the keyboard status cell (D8). -/
  kbsrAddr : Word
  /-- `KBDR_ADDR`: the keyboard data cell (D8). -/
  kbdrAddr : Word
  /-- `KBSR_READY`: what a successful poll stores in the status cell (D10). -/
  kbsrReady : Word
  /-- `TV_GETC` (D9). -/
  tvGetc : Byte
  /-- `TV_OUT` (D9). -/
  tvOut : Byte
  /-- `TV_PUTS` (D9). -/
  tvPuts : Byte
  /-- `TV_IN` (D9). -/
  tvIn : Byte
  /-- `TV_PUTSP` (D9). -/
  tvPutsp : Byte
  /-- `TV_HALT` (D9). -/
  tvHalt : Byte
  /-- `IN_PROMPT`: the bytes the IN service call writes before it reads (D16). -/
  inPrompt : List Byte
  /-- `HALT_NOTICE`: the bytes the HALT service call writes (D16). -/
  haltNotice : List Byte
  deriving DecidableEq, Repr

end Sys2Proof
end

