-- ==== Sys2Proof/Machine/Params.lean ====
section
/-! DEFINITION. The values the parameters of 00_scope.md R5 take in this hardware. They stand here, under Machine/, so
that a test that shows one of them wrong can have it mended. -/

namespace Sys2Proof.Machine

/-- The prompt of IN: the 19 ASCII bytes of "Enter a character: " (45_trap.md R184).
PRESUMED (log 11): the spec marks the text as general knowledge; unsafe for a claim that fixes the bytes. -/
def inPromptBytes : List Byte :=
  [0x45, 0x6E, 0x74, 0x65, 0x72, 0x20, 0x61, 0x20, 0x63, 0x68, 0x61, 0x72, 0x61, 0x63, 0x74, 0x65, 0x72, 0x3A, 0x20]

/-- The notice of HALT: the ASCII bytes of "HALT" and a line feed (45_trap.md R186).
PRESUMED (log 11): the spec marks the text as general knowledge; unsafe for a claim that fixes the bytes. -/
def haltNoticeBytes : List Byte := [0x48, 0x41, 0x4C, 0x54, 0x0A]

/-- The opcode map of 30_encoding.md R104.
PRESUMED (log 1): the spec marks every value but "1000 is fatal" as general knowledge (D6); unsafe if one is wrong. -/
def opcodeValues : OpcodeValues where
  br := 0b0000
  add := 0b0001
  ld := 0b0010
  st := 0b0011
  jsr := 0b0100
  and := 0b0101
  ldr := 0b0110
  str := 0b0111
  rti := 0b1000
  not := 0b1001
  ldi := 0b1010
  sti := 0b1011
  jmp := 0b1100
  res := 0b1101
  lea := 0b1110
  trap := 0b1111

/-- The positions of 30_encoding.md R102.
PRESUMED (log 1): the spec marks them as general knowledge (D7); unsafe if one is wrong. -/
def fieldPositions : FieldPositions where
  dr := 9
  sr := 9
  sr1 := 6
  baseR := 6
  sr2 := 0
  imm5 := 0
  offset6 := 0
  pcOffset9 := 0
  pcOffset11 := 0
  n := 11
  z := 10
  p := 9

/-- The parameter table of 00_scope.md R5. PRESUMED (logs 1, 3 to 5 and 11): every value but `pcReset` is the spec's
general-knowledge default; unsafe if the real machine has another one. -/
def params : Config where
  op := opcodeValues
  pos := fieldPositions
  pcReset := 0x0000
  flPos := 0x0001
  flZro := 0x0002
  flNeg := 0x0004
  kbsrAddr := 0xFE00
  kbdrAddr := 0xFE02
  kbsrReady := 0x8000
  tvGetc := 0x20
  tvOut := 0x21
  tvPuts := 0x22
  tvIn := 0x23
  tvPutsp := 0x24
  tvHalt := 0x25
  inPrompt := inPromptBytes
  haltNotice := haltNoticeBytes

end Sys2Proof.Machine
end

