-- ==== Sys2Proof/Syntax.lean ====
section
/-! DEFINITION. The instructions: one constructor per row of spec/opcode_table.json (spec 30_encoding.md R101 to R105,
R109). Operands are the fields of 30 R102; ignored bits (30 R106) are no operands. -/

namespace Sys2Proof

/-- One constructor per row of the opcode table. TRAP's row is the generic one; its six refinements (GETC to HALT) have
rows, and so constructors, of their own. -/
inductive Instr where
  /-- BR, conditional branch (42 R150): the mask bits n, z, p and PCoffset9. -/
  | br (n z p : Bool) (off : BitVec 9)
  /-- ADD, register form (41 R140). -/
  | addReg (dr sr1 sr2 : Reg)
  /-- ADD, immediate form (41 R141). -/
  | addImm (dr sr1 : Reg) (imm : BitVec 5)
  /-- LD, load PC-relative (43 R160). -/
  | ld (dr : Reg) (off : BitVec 9)
  /-- ST, store PC-relative (44 R170). -/
  | st (sr : Reg) (off : BitVec 9)
  /-- JSR, call with PC-relative target (42 R152). -/
  | jsr (off : BitVec 11)
  /-- JSRR, call through a register (42 R153). -/
  | jsrr (base : Reg)
  /-- AND, register form (41 R142). -/
  | andReg (dr sr1 sr2 : Reg)
  /-- AND, immediate form (41 R143). -/
  | andImm (dr sr1 : Reg) (imm : BitVec 5)
  /-- LDR, load base plus offset (43 R162). -/
  | ldr (dr base : Reg) (off : BitVec 6)
  /-- STR, store base plus offset (44 R172). -/
  | str (sr base : Reg) (off : BitVec 6)
  /-- RTI, reserved: fatal (46 R200). -/
  | rti
  /-- NOT, complement (41 R144). -/
  | not (dr sr1 : Reg)
  /-- LDI, load indirect (43 R161). -/
  | ldi (dr : Reg) (off : BitVec 9)
  /-- STI, store indirect (44 R171). -/
  | sti (sr : Reg) (off : BitVec 9)
  /-- JMP, jump through a register (42 R151). -/
  | jmp (base : Reg)
  /-- RES, reserved: fatal (46 R201). -/
  | res
  /-- LEA, load effective address (43 R163). -/
  | lea (dr : Reg) (off : BitVec 9)
  /-- TRAP with a vector that selects no service (45 R180, R187). -/
  | trap (vect : Byte)
  /-- TRAP 0x20, GETC (45 R181). -/
  | getc
  /-- TRAP 0x21, OUT (45 R182). -/
  | out
  /-- TRAP 0x22, PUTS (45 R183). -/
  | puts
  /-- TRAP 0x23, IN (45 R184); the name `in` is a word of Lean. -/
  | inp
  /-- TRAP 0x24, PUTSP (45 R185). -/
  | putsp
  /-- TRAP 0x25, HALT (45 R186). -/
  | halt
  deriving DecidableEq, Repr

end Sys2Proof
end

