-- ==== Sys2Proof/WellFormed.lean ====
section
/-! DEFINITION. Well-formed instructions. Every operand's type already has its field's width, so one check is left: the
generic TRAP row stands for the vectors that no refining row stands for (spec/opcode_table.json's note on TRAP; 30 R109). -/

namespace Sys2Proof

/-- The vector selects one of the six service calls (30_encoding.md R109). -/
def isServiceVector (v : Byte) : Bool :=
  v == Machine.params.tvGetc || v == Machine.params.tvOut || v == Machine.params.tvPuts ||
    v == Machine.params.tvIn || v == Machine.params.tvPutsp || v == Machine.params.tvHalt

/-- The instruction is one that a word of the machine decodes to. -/
def Instr.wf : Instr → Bool
  | .trap v => !isServiceVector v
  | .br _ _ _ _ | .addReg _ _ _ | .addImm _ _ _ | .ld _ _ | .st _ _ | .jsr _ | .jsrr _ | .andReg _ _ _
  | .andImm _ _ _ | .ldr _ _ _ | .str _ _ _ | .rti | .not _ _ | .ldi _ _ | .sti _ _ | .jmp _ | .res
  | .lea _ _ | .getc | .out | .puts | .inp | .putsp | .halt => true

end Sys2Proof
end

