-- ==== Sys2Proof/Decode.lean ====
section
/-! DEFINITION. The decoder, total on every word (spec 30_encoding.md R113), and after it the encoder, from the same
formats (30 R101). The opcode values of 30 R104 and the field positions of 30 R102 that the spec marks as general knowledge
(D6, D7: log 1) are parameters (00_scope.md R5), `Machine.params.op` and `Machine.params.pos`. The positions written out here
are the document's own: the opcode in 15:12, the mode bits 5 and 11, the register of JMP and JSRR in 8:6, the trap vector in
7:0. -/

namespace Sys2Proof

/-- The sixteen opcodes by name (30 R104). `jsr` is the opcode JSR and JSRR share. -/
inductive Opcode where
  | br | add | ld | st | jsr | and | ldr | str | rti | not | ldi | sti | jmp | res | lea | trap
  deriving DecidableEq, Repr

/-- The opcode map read from a value to a name (30 R104). The value that is none of the other fifteen is RES, the second
fatal one: there is no further case (30 R107, 90_conflicts.md C5). -/
def opcodeOf (b : BitVec 4) : Opcode :=
  if b = Machine.params.op.br then .br
  else if b = Machine.params.op.add then .add
  else if b = Machine.params.op.ld then .ld
  else if b = Machine.params.op.st then .st
  else if b = Machine.params.op.jsr then .jsr
  else if b = Machine.params.op.and then .and
  else if b = Machine.params.op.ldr then .ldr
  else if b = Machine.params.op.str then .str
  else if b = Machine.params.op.rti then .rti
  else if b = Machine.params.op.not then .not
  else if b = Machine.params.op.ldi then .ldi
  else if b = Machine.params.op.sti then .sti
  else if b = Machine.params.op.jmp then .jmp
  else if b = Machine.params.op.lea then .lea
  else if b = Machine.params.op.trap then .trap
  else .res

/-- The opcode map read from a name to its value (30 R104). -/
def opcodeBits : Opcode → BitVec 4
  | .br => Machine.params.op.br
  | .add => Machine.params.op.add
  | .ld => Machine.params.op.ld
  | .st => Machine.params.op.st
  | .jsr => Machine.params.op.jsr
  | .and => Machine.params.op.and
  | .ldr => Machine.params.op.ldr
  | .str => Machine.params.op.str
  | .rti => Machine.params.op.rti
  | .not => Machine.params.op.not
  | .ldi => Machine.params.op.ldi
  | .sti => Machine.params.op.sti
  | .jmp => Machine.params.op.jmp
  | .res => Machine.params.op.res
  | .lea => Machine.params.op.lea
  | .trap => Machine.params.op.trap

/-- `opcode`: bits 15:12 (30 R100, R102). -/
def fieldOpcode (w : Word) : BitVec 4 := w.extractLsb' 12 4

/-- `DR` (30 R102). -/
def fieldDR (w : Word) : Reg := w.extractLsb' Machine.params.pos.dr 3

/-- `SR` of the stores (30 R102). -/
def fieldSR (w : Word) : Reg := w.extractLsb' Machine.params.pos.sr 3

/-- `SR1` (30 R102). -/
def fieldSR1 (w : Word) : Reg := w.extractLsb' Machine.params.pos.sr1 3

/-- `BaseR` of LDR and STR (30 R102). -/
def fieldBaseR (w : Word) : Reg := w.extractLsb' Machine.params.pos.baseR 3

/-- `BaseR` of JMP and JSRR: bits 8:6, which the document gives (30 R102). -/
def fieldJumpR (w : Word) : Reg := w.extractLsb' 6 3

/-- `SR2` (30 R102). -/
def fieldSR2 (w : Word) : Reg := w.extractLsb' Machine.params.pos.sr2 3

/-- `immflag`: bit 5 (30 R102, R105). -/
def fieldImmFlag (w : Word) : Bool := w.getLsbD 5

/-- `longflag`: bit 11 (30 R102, R105). -/
def fieldLongFlag (w : Word) : Bool := w.getLsbD 11

/-- `imm5` (30 R102). -/
def fieldImm5 (w : Word) : BitVec 5 := w.extractLsb' Machine.params.pos.imm5 5

/-- `offset6` (30 R102). -/
def fieldOffset6 (w : Word) : BitVec 6 := w.extractLsb' Machine.params.pos.offset6 6

/-- `PCoffset9` (30 R102). -/
def fieldPCoffset9 (w : Word) : BitVec 9 := w.extractLsb' Machine.params.pos.pcOffset9 9

/-- `PCoffset11` (30 R102). -/
def fieldPCoffset11 (w : Word) : BitVec 11 := w.extractLsb' Machine.params.pos.pcOffset11 11

/-- `trapvect8`: bits 7:0 (30 R102). -/
def fieldTrapvect8 (w : Word) : Byte := w.extractLsb' 0 8

/-- `n` (30 R102). -/
def fieldN (w : Word) : Bool := w.getLsbD Machine.params.pos.n

/-- `z` (30 R102). -/
def fieldZ (w : Word) : Bool := w.getLsbD Machine.params.pos.z

/-- `p` (30 R102). -/
def fieldP (w : Word) : Bool := w.getLsbD Machine.params.pos.p

/-- Which row a TRAP word is: one of the six service calls, or the generic row (30 R109; the table's note: the six rows
refine TRAP's and take priority). -/
def decodeTrap (v : Byte) : Instr :=
  if v = Machine.params.tvGetc then .getc
  else if v = Machine.params.tvOut then .out
  else if v = Machine.params.tvPuts then .puts
  else if v = Machine.params.tvIn then .inp
  else if v = Machine.params.tvPutsp then .putsp
  else if v = Machine.params.tvHalt then .halt
  else .trap v

/-- The decoder: a total function of the word alone (30 R113; 40_cycle.md R132, R133). No word is refused: the two
reserved opcodes are instructions whose meaning is the fatal decode error (30 R107). -/
def decode (w : Word) : Instr :=
  match opcodeOf (fieldOpcode w) with
  | .br => .br (fieldN w) (fieldZ w) (fieldP w) (fieldPCoffset9 w)
  | .add => if fieldImmFlag w then .addImm (fieldDR w) (fieldSR1 w) (fieldImm5 w)
      else .addReg (fieldDR w) (fieldSR1 w) (fieldSR2 w)
  | .ld => .ld (fieldDR w) (fieldPCoffset9 w)
  | .st => .st (fieldSR w) (fieldPCoffset9 w)
  | .jsr => if fieldLongFlag w then .jsr (fieldPCoffset11 w) else .jsrr (fieldJumpR w)
  | .and => if fieldImmFlag w then .andImm (fieldDR w) (fieldSR1 w) (fieldImm5 w)
      else .andReg (fieldDR w) (fieldSR1 w) (fieldSR2 w)
  | .ldr => .ldr (fieldDR w) (fieldBaseR w) (fieldOffset6 w)
  | .str => .str (fieldSR w) (fieldBaseR w) (fieldOffset6 w)
  | .rti => .rti
  | .not => .not (fieldDR w) (fieldSR1 w)
  | .ldi => .ldi (fieldDR w) (fieldPCoffset9 w)
  | .sti => .sti (fieldSR w) (fieldPCoffset9 w)
  | .jmp => .jmp (fieldJumpR w)
  | .res => .res
  | .lea => .lea (fieldDR w) (fieldPCoffset9 w)
  | .trap => decodeTrap (fieldTrapvect8 w)

/-- The instruction the decoder reads from a table row's bits. Every instruction is one 16-bit word in one cell (30 R100),
so the bits are the word; what `nbits` does not reach is 0. -/
def decodeTableWord (nbits w : Nat) : Option Instr := some (decode (BitVec.ofNat 16 (w % 2 ^ nbits)))

/-- The opcode an instruction is encoded with (30 R104). -/
def Instr.opcode : Instr → Opcode
  | .br _ _ _ _ => .br
  | .addReg _ _ _ | .addImm _ _ _ => .add
  | .ld _ _ => .ld
  | .st _ _ => .st
  | .jsr _ | .jsrr _ => .jsr
  | .andReg _ _ _ | .andImm _ _ _ => .and
  | .ldr _ _ _ => .ldr
  | .str _ _ _ => .str
  | .rti => .rti
  | .not _ _ => .not
  | .ldi _ _ => .ldi
  | .sti _ _ => .sti
  | .jmp _ => .jmp
  | .res => .res
  | .lea _ _ => .lea
  | .trap _ | .getc | .out | .puts | .inp | .putsp | .halt => .trap

/-- A field's bits at their place in a word: `lo` is the number of the field's lowest bit. -/
def place {n : Nat} (lo : Nat) (f : BitVec n) : Word := f.setWidth 16 <<< lo

/-- What an instruction's word holds besides its opcode: the formats of 30 R101, each field at its place, with the bracketed
values in the ignored bits (ones in bits 5:0 of NOT, zeros elsewhere). -/
def encodeLow (i : Instr) : Word :=
  let pos := Machine.params.pos
  match i with
  | .br n z p off =>
    place pos.n (BitVec.ofBool n) ||| place pos.z (BitVec.ofBool z) ||| place pos.p (BitVec.ofBool p) |||
      place pos.pcOffset9 off
  | .addReg dr sr1 sr2 | .andReg dr sr1 sr2 => place pos.dr dr ||| place pos.sr1 sr1 ||| place pos.sr2 sr2
  | .addImm dr sr1 imm | .andImm dr sr1 imm =>
    place pos.dr dr ||| place pos.sr1 sr1 ||| place 5 1#1 ||| place pos.imm5 imm
  | .not dr sr1 => place pos.dr dr ||| place pos.sr1 sr1 ||| place 0 0b111111#6
  | .ld dr off | .ldi dr off | .lea dr off => place pos.dr dr ||| place pos.pcOffset9 off
  | .st sr off | .sti sr off => place pos.sr sr ||| place pos.pcOffset9 off
  | .ldr dr base off => place pos.dr dr ||| place pos.baseR base ||| place pos.offset6 off
  | .str sr base off => place pos.sr sr ||| place pos.baseR base ||| place pos.offset6 off
  | .jsr off => place 11 1#1 ||| place pos.pcOffset11 off
  | .jsrr base | .jmp base => place 6 base
  | .rti | .res => 0x0000#16
  | .trap v => place 0 v
  | .getc => place 0 Machine.params.tvGetc
  | .out => place 0 Machine.params.tvOut
  | .puts => place 0 Machine.params.tvPuts
  | .inp => place 0 Machine.params.tvIn
  | .putsp => place 0 Machine.params.tvPutsp
  | .halt => place 0 Machine.params.tvHalt

/-- The encoder: the one word of an instruction, its opcode in bits 15:12 beside its format's other bits (30 R101,
R104). -/
def encode (i : Instr) : Word := place 12 (opcodeBits i.opcode) ||| encodeLow i

/-- The bits a field of `n` bits covers. -/
def fieldMask (lo n : Nat) : Word := place lo (BitVec.allOnes n)

/-- The bits of an instruction's word that the decoder examines: its opcode, its mode bit and its fields. The others are the
dashes of 30 R101, which it ignores (30 R106). -/
def examinedBits (i : Instr) : Word :=
  let pos := Machine.params.pos
  fieldMask 12 4 ||| match i with
  | .br _ _ _ _ => fieldMask pos.n 1 ||| fieldMask pos.z 1 ||| fieldMask pos.p 1 ||| fieldMask pos.pcOffset9 9
  | .addReg _ _ _ | .andReg _ _ _ => fieldMask pos.dr 3 ||| fieldMask pos.sr1 3 ||| fieldMask 5 1 ||| fieldMask pos.sr2 3
  | .addImm _ _ _ | .andImm _ _ _ =>
    fieldMask pos.dr 3 ||| fieldMask pos.sr1 3 ||| fieldMask 5 1 ||| fieldMask pos.imm5 5
  | .not _ _ => fieldMask pos.dr 3 ||| fieldMask pos.sr1 3
  | .ld _ _ | .ldi _ _ | .lea _ _ => fieldMask pos.dr 3 ||| fieldMask pos.pcOffset9 9
  | .st _ _ | .sti _ _ => fieldMask pos.sr 3 ||| fieldMask pos.pcOffset9 9
  | .ldr _ _ _ => fieldMask pos.dr 3 ||| fieldMask pos.baseR 3 ||| fieldMask pos.offset6 6
  | .str _ _ _ => fieldMask pos.sr 3 ||| fieldMask pos.baseR 3 ||| fieldMask pos.offset6 6
  | .jsr _ => fieldMask 11 1 ||| fieldMask pos.pcOffset11 11
  | .jsrr _ => fieldMask 11 1 ||| fieldMask 6 3
  | .jmp _ => fieldMask 6 3
  | .rti | .res => 0x0000#16
  | .trap _ | .getc | .out | .puts | .inp | .putsp | .halt => fieldMask 0 8

end Sys2Proof
end

