-- ==== Sys2Proof/Machine/State.lean ====
section
/-! DEFINITION. The state of the machine as plain data (spec 10_state.md R20, R36; 40_cycle.md R135), the reasons a step
can stop, and the state right after reset (10 R37). -/

namespace Sys2Proof.Machine

/-- The run state RS (10 R31). -/
inductive RunState where
  /-- The core takes steps. -/
  | running
  /-- The HALT service call was executed: the normal end. -/
  | halted
  /-- A reserved opcode was fetched: the abnormal end. -/
  | faulted
  deriving DecidableEq, Repr

/-- Which TRAP step has begun and not completed. The spec describes these situations and names no register for them: the
hold of GETC and of IN (40 R135(d), 15 R53) and the PUTS or PUTSP that never finds a zero cell (40 R135, 45 R183, R185).
DESIGN CHOICE (logs 8 and 9): the model's own field; safe. -/
inductive Activity where
  /-- No step is in progress: the next thing the core does is fetch. -/
  | idle
  /-- GETC waits for a character. -/
  | getc
  /-- IN has sent its prompt and waits for a character. -/
  | input
  /-- PUTS sends the cells of a memory without a zero cell, round and round. -/
  | puts
  /-- PUTSP sends the cells of a memory without a zero cell, round and round. -/
  | putsp
  deriving DecidableEq, Repr

/-- An event of the output record (15 R54). -/
inductive ConEvent where
  /-- `ConPut(b)`: the character b is handed to the output device. -/
  | put (b : Byte)
  /-- `ConFlush()`. -/
  | flush
  deriving DecidableEq, Repr

/-- Memory as the pairs (address, content) of the cells that do not hold 0x0000, the reset content of every cell (10 R32,
R37). A cell is 16 bits and the smallest thing the machine addresses (20_memory.md R77).
DESIGN CHOICE (log 18): 16-bit cells, not bytes; safe. -/
abbrev Memory := List (Nat × Word)

/-- The whole state: the tuple of 10 R20, the environment state the core sees through its two devices (10 R36), and the
model's own `activity`. -/
@[ext]
structure State where
  /-- R0 to R7 (10 R21). -/
  regs : Vector Word 8
  /-- The program counter (10 R24). -/
  pc : Word
  /-- The condition-flag register COND (10 R27). -/
  cond : Word
  /-- The run state RS (10 R31). -/
  rs : RunState
  /-- The memory M (10 R32); the two keyboard cells are cells of it (10 R33). -/
  mem : Memory
  /-- The input device's pending characters Q, the first one first (10 R36, 15 R52). -/
  kbd : List Byte
  /-- The output record so far, oldest event first (10 R36, 15 R54). -/
  out : List ConEvent
  /-- The TRAP step in progress, if any (40 R135). -/
  activity : Activity
  deriving DecidableEq, Repr

/-- Why a step can stop the model. Nothing an instruction does is in this type: an instruction always answers a next
state. -/
inductive Fault where
  /-- Raised by `step`, and by nothing else, when the core is FAULTED (10 R31; 60_exceptions.md R210, R212, D25): a reserved
  opcode was fetched in an earlier step, whose next state holds everything the fault left. `instr` is the offending word,
  `M[pc - 1]`. Safe: the machine takes no further step there (46_reserved.md R202), and a claim about a run that gets here
  has no next state to speak of. DESIGN CHOICE (log 10). -/
  | decodeFault (instr : Word)
  deriving DecidableEq, Repr

/-- Why the model refuses an instruction. -/
inductive Refusal where
  /-- Raised by `exec` for an instruction that has no meaning yet, by its mnemonic; no arm does so now. Safe: no next state
  is claimed. -/
  | notModelled (mnemonic : String)
  deriving DecidableEq, Repr

/-- The machine right after reset (10 R37; 70_reset_and_hazards.md R240): registers and cells zero, pc at `PC_RESET`, COND
at `FL_ZRO`, RS RUNNING. DESIGN CHOICE (logs 6, 7 and 8): reset does not touch the pending characters and the output record
(70 R240); this state has none pending, an empty record and no step in progress. Unsafe for a claim about a run that starts
here with characters pending; `State.assertReset` and `State.keyArrives` give those. -/
def State.reset : State where
  regs := Vector.replicate 8 0x0000#16
  pc := params.pcReset
  cond := params.flZro
  rs := .running
  mem := []
  kbd := []
  out := []
  activity := .idle

end Sys2Proof.Machine
end

