-- ==== Sys2Proof/Machine/Flags.lean ====
section
/-! DEFINITION. The condition flags: the one flag computation (spec 10_state.md R28) and the test of BR (42_control.md
R150). -/

namespace Sys2Proof.Machine

/-- The value `setcc(v)` gives COND (10 R28). -/
def condOf (v : Word) : Word :=
  if v = 0x0000#16 then params.flZro else if v.getLsbD 15 then params.flNeg else params.flPos

/-- The condition field of BR as a 3-bit number, n*4 + z*2 + p (42 R150). -/
def condMask (n z p : Bool) : BitVec 3 := BitVec.ofBool n ++ BitVec.ofBool z ++ BitVec.ofBool p

/-- Whether BR branches: the mask and COND[2:0] have a bit in common (42 R150). -/
def branchTaken (n z p : Bool) (cond : Word) : Bool := condMask n z p &&& cond.extractLsb' 0 3 != 0b000#3

end Sys2Proof.Machine
end

