-- ==== Sys2Proof/Machine/Memory.lean ====
section
/-! DEFINITION. Memory as data: its canonical form, and reading and writing one cell (spec 10_state.md R32; 20_memory.md
R70, R74, R77). Keys are the numbers of cells. -/

namespace Sys2Proof.Machine

/-- The content of cell `a`; an unlisted cell holds 0x0000 (10 R37). -/
def Memory.read : Memory → Nat → Word
  | [], _ => 0x0000#16
  | (k, w) :: m, a => if a = k then w else Memory.read m a

/-- The cells `a` on, with `v` written in front of them unless it is what an unlisted cell holds. -/
def Memory.put (a : Nat) (v : Word) (m : Memory) : Memory := if v = 0x0000#16 then m else (a, v) :: m

/-- Cell `a` becomes `v`, every other cell stays (20 R74). The list stays in rising order, and writing 0x0000 takes the
cell out of it. -/
def Memory.write : Memory → Nat → Word → Memory
  | [], a, v => Memory.put a v []
  | (k, w) :: m, a, v =>
    if a < k then Memory.put a v ((k, w) :: m)
    else if a = k then Memory.put a v m
    else (k, w) :: Memory.write m a v

/-- The list is in canonical form from address `lo` on: addresses strictly rising, below 65536, no cell 0x0000. -/
def Memory.wfFrom : Nat → Memory → Bool
  | _, [] => true
  | lo, (k, w) :: m => decide (lo ≤ k) && decide (k < 65536) && decide (w ≠ 0x0000#16) && Memory.wfFrom (k + 1) m

/-- The canonical form: two memories with the same cells are the same list. -/
def Memory.wf (m : Memory) : Bool := Memory.wfFrom 0 m

/-- The scan of a string (45_trap.md R183, R185): the cells from `a` on, one after another, the address wrapping modulo
65536, before the first one that is 0x0000. It looks at `n` cells at most and says whether it met the terminator. The reads
are raw (45 R188, D14). -/
def Memory.scanString (m : Memory) : Nat → Word → List Word × Bool
  | 0, _ => ([], false)
  | n + 1, a =>
    if m.read a.toNat = 0x0000#16 then ([], true)
    else (m.read a.toNat :: (Memory.scanString m n (a + 1#16)).1, (Memory.scanString m n (a + 1#16)).2)

end Sys2Proof.Machine
end

