-- ==== Sys2Proof/Machine/Ops.lean ====
section
/-! DEFINITION. The named operations of the machine over its state: registers, memory with the mapped-I/O read policy, the
two devices, taking the machine's one exception, and entering a TRAP (spec 00_scope.md's table of primitives). -/

namespace Sys2Proof.Machine

/-! ### Updates of one field -/

/-- `pc <- v` (10_state.md R25). -/
def State.setPc (s : State) (v : Word) : State := { s with pc := v }

/-- `COND <- v`. -/
def State.setCond (s : State) (v : Word) : State := { s with cond := v }

/-- `RS <- r` (10 R31). -/
def State.setRs (s : State) (r : RunState) : State := { s with rs := r }

/-- The memory becomes `m`. -/
def State.setMem (s : State) (m : Memory) : State := { s with mem := m }

/-- The pending characters become `q` (15_interfaces.md R52). -/
def State.setKbd (s : State) (q : List Byte) : State := { s with kbd := q }

/-- The core does the output events `es`, in order (15 R54). -/
def State.emit (s : State) (es : List ConEvent) : State := { s with out := s.out ++ es }

/-- The step in progress becomes `a` (40_cycle.md R135). -/
def State.setActivity (s : State) (a : Activity) : State := { s with activity := a }

/-! ### Registers -/

/-- `R[r]` (10 R21). -/
def State.reg (s : State) (r : Reg) : Word := s.regs[r.toNat]'(r.isLt)

/-- `R[r] <- v`: it changes register r only, and no flag (10 R21). -/
def State.setReg (s : State) (r : Reg) (v : Word) : State := { s with regs := s.regs.set r.toNat v r.isLt }

/-- `setcc(v)` (10 R28). -/
def State.setcc (s : State) (v : Word) : State := s.setCond (condOf v)

/-- `R[r] <- v` and then `setcc(R[r])`: how every flag-setting instruction ends (10 R28, R29; 70_reset_and_hazards.md
R247). -/
def State.writeResult (s : State) (r : Reg) (v : Word) : State :=
  (s.setReg r v).setcc ((s.setReg r v).reg r)

/-! ### Memory -/

/-- `M[a]`: the stored content, no side effect (10 R32). -/
def State.cell (s : State) (a : Word) : Word := s.mem.read a.toNat

/-- `M[a] <- v`: the raw write (20_memory.md R75). -/
def State.setCell (s : State) (a v : Word) : State := s.setMem (s.mem.write a.toNat v)

/-- A character as a word: bits 7:0, the rest 0 (00_scope.md R9; D11, log 12). -/
def zextChar (c : Byte) : Word := c.setWidth 16

/-- The poll of the keyboard inside a read of the status cell (20 R71, R72; `KbdPoll` and `KbdTake` of 15 R52): with a
character pending the status cell becomes `KBSR_READY`, the data cell that character, and the character is taken; with none
the status cell becomes 0x0000 and the data cell stays. -/
def State.pollKeyboard (s : State) : State :=
  match s.kbd with
  | [] => s.setCell params.kbsrAddr 0x0000#16
  | c :: q => ((s.setCell params.kbsrAddr params.kbsrReady).setCell params.kbdrAddr (zextChar c)).setKbd q

/-- What a read through the mapped-I/O policy does before its value is returned: it polls if the address is the status
cell, and nothing else (20 R71, R73, R81). -/
def State.readEffect (s : State) (a : Word) : State := if a = params.kbsrAddr then s.pollKeyboard else s

/-- `MemRead(a, 16)`: the value and the state after the read (20 R71). -/
def State.memRead (s : State) (a : Word) : Word × State := ((s.readEffect a).cell a, s.readEffect a)

/-- `MemWrite(a, 16, v)`: a plain store at every address (20 R74, R83). -/
def State.memWrite (s : State) (a v : Word) : State := s.setCell a v

/-! ### Output -/

/-- `ConPut` of each byte, in order. -/
def putEvents (bs : List Byte) : List ConEvent := bs.map .put

/-- `ConPut` of each byte, in order (15 R54). -/
def State.putBytes (s : State) (bs : List Byte) : State := s.emit (putEvents bs)

/-- `ConFlush()` (15 R54). -/
def State.flush (s : State) : State := s.emit [.flush]

/-! ### The exception and the TRAP entry -/

/-- `raise DecodeFault(instr)`: RS becomes FAULTED and nothing else changes (46_reserved.md R202; 60_exceptions.md R211).
There is no handler, no saved register and no return from it (60 R212, R217, R218); the offending word stays readable
as `M[pc - 1]` (`State.offendingWord`). -/
def State.raiseDecodeFault (s : State) : State := s.setRs .faulted

/-- The word that raised the DecodeFault of a FAULTED core (60 R210). -/
def State.offendingWord (s : State) : Word := s.cell (s.pc - 1#16)

/-- The first thing every TRAP does: `R[7] <- pc` (45_trap.md R180; 60 R217). -/
def State.enterTrap (s : State) : State := s.setReg 7#3 s.pc

end Sys2Proof.Machine
end

