-- ==== Sys2Proof/Machine/Services.lean ====
section
/-! DEFINITION. The six service calls as shared operations, and the dispatch on the trap vector (spec 45_trap.md). They run
inside the step of the TRAP, after `R[7] <- pc` (45 R180, R188). A service that cannot complete leaves its name in
`activity`; `State.resumeService` goes on with it. -/

namespace Sys2Proof.Machine

/-- `KbdWait()` as GETC uses it, with what follows it (45 R181; 15_interfaces.md R53). A pending character is taken from the
device and goes to R0, zero-extended, with the flags from R0; with none the core is held and nothing else happens. -/
def State.awaitGetc (s : State) : State :=
  match s.kbd with
  | [] => s.setActivity .getc
  | c :: q => (((s.setKbd q).setActivity .idle).setReg 0#3 (zextChar c)).setcc (zextChar c)

/-- `KbdWait()` as IN uses it, with what follows it: the echo, one flush, R0 and the flags (45 R184; D17, log 16). -/
def State.awaitInput (s : State) : State :=
  match s.kbd with
  | [] => s.setActivity .input
  | c :: q => (((((s.setKbd q).setActivity .idle).putBytes [c]).flush).setReg 0#3 (zextChar c)).setcc (zextChar c)

/-- GETC (45 R181). -/
def State.serviceGetc (s : State) : State := s.awaitGetc

/-- OUT: the low byte of R0, and a flush (45 R182). -/
def State.serviceOut (s : State) : State := (s.putBytes [(s.reg 0#3).extractLsb' 0 8]).flush

/-- The number of cells one lap of the memory has (10_state.md R32). A string scan that has seen them all and met no zero
cell never will. -/
def memCells : Nat := 65536

/-- What PUTS sends for one cell: its low byte (45 R183). -/
def putsBytes (w : Word) : List Byte := [w.extractLsb' 0 8]

/-- What PUTSP sends for one cell: its low byte, then its high byte unless that is zero (45 R185). -/
def putspBytes (w : Word) : List Byte :=
  if w.extractLsb' 8 8 = 0x00#8 then [w.extractLsb' 0 8] else [w.extractLsb' 0 8, w.extractLsb' 8 8]

/-- PUTS: the low byte of each cell from the one R0 names up to the first zero cell, then a flush (45 R183). If no cell of
the memory is zero it sends one lap of the memory and is still in progress (40_cycle.md R135; log 9). -/
def State.servicePuts (s : State) : State :=
  let r := s.mem.scanString memCells (s.reg 0#3)
  let s' := s.putBytes (r.1.flatMap putsBytes)
  if r.2 then s'.flush.setActivity .idle else s'.setActivity .puts

/-- IN: the prompt, then the wait (45 R184). -/
def State.serviceIn (s : State) : State := (s.putBytes params.inPrompt).awaitInput

/-- PUTSP: as PUTS, with two characters in a cell (45 R185). -/
def State.servicePutsp (s : State) : State :=
  let r := s.mem.scanString memCells (s.reg 0#3)
  let s' := s.putBytes (r.1.flatMap putspBytes)
  if r.2 then s'.flush.setActivity .idle else s'.setActivity .putsp

/-- HALT: the notice, a flush, and RS becomes HALTED (45 R186). -/
def State.serviceHalt (s : State) : State := ((s.putBytes params.haltNotice).flush).setRs .halted

/-- The dispatch on the vector; a vector outside the six is no error and does nothing (45 R180, R187). -/
def State.dispatchService (s : State) (v : Byte) : State :=
  if v = params.tvGetc then s.serviceGetc
  else if v = params.tvOut then s.serviceOut
  else if v = params.tvPuts then s.servicePuts
  else if v = params.tvIn then s.serviceIn
  else if v = params.tvPutsp then s.servicePutsp
  else if v = params.tvHalt then s.serviceHalt
  else s

/-- A TRAP step in progress goes on: a held GETC or IN looks at the device again (15 R53), a PUTS or PUTSP without end sends
its next lap. -/
def State.resumeService (s : State) : State :=
  match s.activity with
  | .idle => s
  | .getc => s.awaitGetc
  | .input => s.awaitInput
  | .puts => s.servicePuts
  | .putsp => s.servicePutsp

end Sys2Proof.Machine
end

