-- ==== Sys2Proof/Machine/Cycle.lean ====
section
/-! DEFINITION. The parts of a step around the instruction (spec 40_cycle.md): the fetch, what a stopped core does, and
where an instruction word is placed to be fetched next. -/

namespace Sys2Proof.Machine

/-- The word the fetch reads, through the mapped-I/O policy (40 R131; 20_memory.md R76). -/
def State.fetchedWord (s : State) : Word := (s.memRead s.pc).1

/-- The state after the fetch: the read's effect, then pc incremented modulo 65536 (40 R131). -/
def State.afterFetch (s : State) : State := (s.memRead s.pc).2.setPc (s.pc + 1#16)

/-- The core may fetch: it is RUNNING and no TRAP step is in progress (40 R130, R135). -/
def State.canFetch (s : State) : Bool := s.rs == .running && s.activity == .idle

/-- What a core that does not fetch answers. HALTED: no step is taken and no state changes (40 R130). FAULTED: likewise, and
the model's run stops with the fault, which carries the offending word (60_exceptions.md R210, D25). RUNNING: the TRAP
step in progress goes on (15_interfaces.md R53). DESIGN CHOICE (logs 8, 9 and 10): a core with no enabled step answers its own
unchanged state; safe. -/
def State.withoutFetch (s : State) : Host.Outcome State Fault Refusal :=
  match s.rs with
  | .halted => .next s
  | .faulted => .fault (.decodeFault s.offendingWord)
  | .running => .next s.resumeService

/-- The state in which the next fetch reads `w`: `w` in the cell pc names, and the core able to fetch. (At the status cell
no stored word is ever fetched, 20 R83.) DESIGN CHOICE (log 20); safe. -/
def State.placeWord (s : State) (w : Word) : State := ((s.setCell s.pc w).setRs .running).setActivity .idle

end Sys2Proof.Machine
end

