-- ==== Sys2Proof/Machine/Operands.lean ====
section
/-! DEFINITION. The operand forms: sign-extended immediates and the ways to form an address (spec 30_encoding.md R103;
43_load.md R164). All sums wrap modulo 65536 (20_memory.md R90). -/

namespace Sys2Proof.Machine

/-- `sext_N(f)`: the field's top bit copied into all higher bits (00_scope.md R8). -/
def sext {n : Nat} (f : BitVec n) : Word := f.signExtend 16

/-- PC-relative with a 9-bit offset: `pc + sext_9(PCoffset9)`, pc being already incremented (43 R164; 42 R150). -/
def State.pcRel9 (s : State) (off : BitVec 9) : Word := s.pc + sext off

/-- PC-relative with an 11-bit offset: `pc + sext_11(PCoffset11)` (42 R152). -/
def State.pcRel11 (s : State) (off : BitVec 11) : Word := s.pc + sext off

/-- Base plus offset: `R[BaseR] + sext_6(offset6)` (43 R164). -/
def State.baseOffset (s : State) (base : Reg) (off : BitVec 6) : Word := s.reg base + sext off

/-- Indirect: the pointer read through the mapped-I/O policy from `pc + sext_9(PCoffset9)`, and the state after that read
(43 R164, R161; 44_store.md R171). -/
def State.indirect (s : State) (off : BitVec 9) : Word × State := s.memRead (s.pcRel9 off)

end Sys2Proof.Machine
end

