-- ==== Sys2Proof/Machine/Alu.lean ====
section
/-! DEFINITION. The meanings of ADD, AND and NOT (spec 41_alu.md). -/

namespace Sys2Proof.Machine

/-- ADD, register form (41 R140). -/
def execAddReg (dr sr1 sr2 : Reg) (s : State) : Host.Outcome State Fault Refusal :=
  .next (s.writeResult dr (s.reg sr1 + s.reg sr2))

/-- ADD, immediate form (41 R141). -/
def execAddImm (dr sr1 : Reg) (imm : BitVec 5) (s : State) : Host.Outcome State Fault Refusal :=
  .next (s.writeResult dr (s.reg sr1 + sext imm))

/-- AND, register form (41 R142). -/
def execAndReg (dr sr1 sr2 : Reg) (s : State) : Host.Outcome State Fault Refusal :=
  .next (s.writeResult dr (s.reg sr1 &&& s.reg sr2))

/-- AND, immediate form (41 R143). -/
def execAndImm (dr sr1 : Reg) (imm : BitVec 5) (s : State) : Host.Outcome State Fault Refusal :=
  .next (s.writeResult dr (s.reg sr1 &&& sext imm))

/-- NOT (41 R144). -/
def execNot (dr sr1 : Reg) (s : State) : Host.Outcome State Fault Refusal :=
  .next (s.writeResult dr (~~~ s.reg sr1))

end Sys2Proof.Machine
end

