-- ==== Sys2Proof/Machine/Control.lean ====
section
/-! DEFINITION. The meanings of BR, JMP, JSR and JSRR (spec 42_control.md). `pc` is the instruction's address plus one
(40_cycle.md R131). -/

namespace Sys2Proof.Machine

/-- BR (42 R150). -/
def execBr (n z p : Bool) (off : BitVec 9) (s : State) : Host.Outcome State Fault Refusal :=
  .next (if branchTaken n z p s.cond then s.setPc (s.pcRel9 off) else s)

/-- JMP (42 R151). -/
def execJmp (base : Reg) (s : State) : Host.Outcome State Fault Refusal :=
  .next (s.setPc (s.reg base))

/-- JSR: R7 first, then the transfer (42 R152). -/
def execJsr (off : BitVec 11) (s : State) : Host.Outcome State Fault Refusal :=
  .next ((s.setReg 7#3 s.pc).setPc (s.pcRel11 off))

/-- JSRR: R7 is written before the base register is read, so JSRR R7 goes on with the next instruction (42 R153). -/
def execJsrr (base : Reg) (s : State) : Host.Outcome State Fault Refusal :=
  .next ((s.setReg 7#3 s.pc).setPc ((s.setReg 7#3 s.pc).reg base))

end Sys2Proof.Machine
end

