-- ==== Sys2Proof/Machine/Load.lean ====
section
/-! DEFINITION. The meanings of LD, LDI, LDR and LEA (spec 43_load.md). Every memory read goes through the mapped-I/O
policy (20_memory.md R76). -/

namespace Sys2Proof.Machine

/-- How a load ends: the datum read from `ea` goes to DR and sets the flags (43 R160 to R162). -/
def State.loadFrom (s : State) (dr : Reg) (ea : Word) : State := (s.memRead ea).2.writeResult dr (s.memRead ea).1

/-- LD (43 R160). -/
def execLd (dr : Reg) (off : BitVec 9) (s : State) : Host.Outcome State Fault Refusal :=
  .next (s.loadFrom dr (s.pcRel9 off))

/-- LDI: the pointer read, then the datum read (43 R161). -/
def execLdi (dr : Reg) (off : BitVec 9) (s : State) : Host.Outcome State Fault Refusal :=
  .next ((s.indirect off).2.loadFrom dr (s.indirect off).1)

/-- LDR (43 R162). -/
def execLdr (dr base : Reg) (off : BitVec 6) (s : State) : Host.Outcome State Fault Refusal :=
  .next (s.loadFrom dr (s.baseOffset base off))

/-- LEA: the address itself, no memory access; it sets the flags (43 R163). -/
def execLea (dr : Reg) (off : BitVec 9) (s : State) : Host.Outcome State Fault Refusal :=
  .next (s.writeResult dr (s.pcRel9 off))

end Sys2Proof.Machine
end

