-- ==== Sys2Proof/Machine/Reserved.lean ====
section
/-! DEFINITION. The meanings of the two reserved opcodes (spec 46_reserved.md): each raises the DecodeFault, whose effect the
spec gives, so each answers the state at the fault. -/

namespace Sys2Proof.Machine

/-- RTI (46 R200). -/
def execRti (s : State) : Host.Outcome State Fault Refusal := .next s.raiseDecodeFault

/-- RES (46 R201). -/
def execRes (s : State) : Host.Outcome State Fault Refusal := .next s.raiseDecodeFault

end Sys2Proof.Machine
end

