-- ==== Sys2Proof/Machine/Store.lean ====
section
/-! DEFINITION. The meanings of ST, STI and STR (spec 44_store.md). -/

namespace Sys2Proof.Machine

/-- ST (44 R170). -/
def execSt (sr : Reg) (off : BitVec 9) (s : State) : Host.Outcome State Fault Refusal :=
  .next (s.memWrite (s.pcRel9 off) (s.reg sr))

/-- STI: the pointer read through the mapped-I/O policy, then the store (44 R171). -/
def execSti (sr : Reg) (off : BitVec 9) (s : State) : Host.Outcome State Fault Refusal :=
  .next ((s.indirect off).2.memWrite (s.indirect off).1 ((s.indirect off).2.reg sr))

/-- STR (44 R172). -/
def execStr (sr base : Reg) (off : BitVec 6) (s : State) : Host.Outcome State Fault Refusal :=
  .next (s.memWrite (s.baseOffset base off) (s.reg sr))

end Sys2Proof.Machine
end

