-- ==== Sys2Proof/Machine/Trap.lean ====
section
/-! DEFINITION. The meanings of TRAP and of its six service calls (spec 45_trap.md). Each begins with `R[7] <- pc`; none
changes pc (45 R180). -/

namespace Sys2Proof.Machine

/-- TRAP: R7, then the dispatch on the vector (45 R180); the decoder gives this row the vectors without a service (45
R187). DESIGN CHOICE (log 19): the whole dispatch of R180 is here, so the meaning is right for every vector; safe. -/
def execTrap (v : Byte) (s : State) : Host.Outcome State Fault Refusal := .next (s.enterTrap.dispatchService v)

/-- GETC (45 R181). -/
def execGetc (s : State) : Host.Outcome State Fault Refusal := .next s.enterTrap.serviceGetc

/-- OUT (45 R182). -/
def execOut (s : State) : Host.Outcome State Fault Refusal := .next s.enterTrap.serviceOut

/-- PUTS (45 R183). -/
def execPuts (s : State) : Host.Outcome State Fault Refusal := .next s.enterTrap.servicePuts

/-- IN (45 R184). -/
def execIn (s : State) : Host.Outcome State Fault Refusal := .next s.enterTrap.serviceIn

/-- PUTSP (45 R185). -/
def execPutsp (s : State) : Host.Outcome State Fault Refusal := .next s.enterTrap.servicePutsp

/-- HALT (45 R186). -/
def execHalt (s : State) : Host.Outcome State Fault Refusal := .next s.enterTrap.serviceHalt

end Sys2Proof.Machine
end

