-- ==== Sys2Proof/Machine/Step.lean ====
section
/-! DEFINITION. One step of the machine (spec 40_cycle.md R130 to R133). -/

namespace Sys2Proof.Machine

/-- Fetch, decode, dispatch; or what a core that does not fetch does. -/
def step (s : State) : Host.Outcome State Fault Refusal :=
  if s.canFetch then exec (decode s.fetchedWord) s.afterFetch else s.withoutFetch

/-- `s` with the instruction whose bits are `w` stored where `step` fetches next. -/
def State.withFetchWord (s : State) (nbits w : Nat) : State := s.placeWord (BitVec.ofNat 16 (w % 2 ^ nbits))

end Sys2Proof.Machine
end

