-- ==== Sys2Proof/Machine/HostPort.lean ====
section
/-! DEFINITION. The interfaces of the block and the launch of a run (spec 15_interfaces.md R50 to R57;
70_reset_and_hazards.md R240 to R243): what the environment does to the core, the image loader's contract, and the system of
core and host as a machine over the host's events. -/

namespace Sys2Proof.Machine

/-! ### The ports of the core (15 R51) -/

/-- The `reset` port: every piece of the core's state at its reset value; the pending characters and the output record
belong to the environment and stay (70 R240). -/
def State.assertReset (s : State) : State := { State.reset with kbd := s.kbd, out := s.out }

/-- The `load(a, v)` port: `M[a] <- v`, raw (15 R51; 20_memory.md R75). -/
def State.loadCell (s : State) (a v : Word) : State := s.setCell a v

/-- The environment appends a character to the pending ones (15 R52). -/
def State.keyArrives (s : State) (c : Byte) : State := s.setKbd (s.kbd ++ [c])

/-- The `running` output (15 R51). -/
def State.runningOut (s : State) : Bool := s.rs == .running

/-- The `fatal` output (15 R51; 60_exceptions.md R212). -/
def State.fatalOut (s : State) : Bool := s.rs == .faulted

/-! ### The image loader's contract (70 R242, R243) -/

/-- The words of an image: each pair of bytes is one word, the first byte its bits 15:8; a trailing odd byte is ignored
(70 R242, D22; log 17). -/
def imageWords : List Byte → List Word
  | hi :: lo :: bs => (hi ++ lo : Word) :: imageWords bs
  | [_] => []
  | [] => []

/-- The words stored one after another from address `a`, none past 0xFFFF (70 R242). -/
def loadWords (m : Memory) (a : Nat) : List Word → Memory
  | [] => m
  | w :: ws => if a ≤ 0xFFFF then loadWords (m.write a w) (a + 1) ws else m

/-- One image: its first word is the origin, the others are loaded from there; with fewer than two bytes it is a load
failure (70 R242, D22). -/
def loadImage (m : Memory) (bytes : List Byte) : Option Memory :=
  match imageWords bytes with
  | [] => none
  | origin :: ws => some (loadWords m origin.toNat ws)

/-- Several images, in the order given; a later one may overwrite an earlier one's cells (70 R243). -/
def loadImages (m : Memory) : List (List Byte) → Option Memory
  | [] => some m
  | b :: bs => (loadImage m b).bind fun m' => loadImages m' bs

/-- The launch state: the reset state but for the memory the images wrote (70 R241); none if an image fails to load. -/
def State.launch (images : List (List Byte)) : Option State :=
  (loadImages State.reset.mem images).map State.reset.setMem

/-! ### Core and host together -/

/-- Where a run is (70 R241; 15 R57). -/
inductive Phase where
  /-- After reset: the host may load; the core takes no step. -/
  | loading
  /-- After `start`: the core takes steps. -/
  | started
  /-- The host cut the run: it has no final state. -/
  | abandoned
  deriving DecidableEq, Repr

/-- The core, the phase of the run, and what a run is observed by besides the core's own state (15 R56): the number of
steps begun so far and the characters taken, each with the number of the step that took it. DESIGN CHOICE (log 15). -/
structure System where
  /-- The phase of the run. -/
  phase : Phase
  /-- The core. -/
  core : State
  /-- How many steps have begun. -/
  steps : Nat
  /-- The characters taken from the input device, oldest first, each with the step it was taken in. -/
  taken : List (Nat × Byte)
  deriving DecidableEq, Repr

/-- What can happen next (15 R55, R52, R50). `reset` and `cut` can come at any moment, "including in the middle of a step or
of a hold" (15 R57): their number says how many of the actions of the step in progress were done by then, 0 being the
moment between two steps. DESIGN CHOICE (log 22); safe. -/
inductive HostEvent where
  /-- The host asserts `reset`. -/
  | reset (done : Nat)
  /-- The host writes a cell. -/
  | load (a v : Word)
  /-- The host starts the run. -/
  | start
  /-- A character arrives. -/
  | key (c : Byte)
  /-- The core takes a step, or goes on with one. -/
  | step
  /-- The host abandons the run. -/
  | cut (done : Nat)
  deriving DecidableEq, Repr

/-- The characters a step from `s` to `t` took: the first of `s`'s pending ones. -/
def takenBetween (s t : State) : List Byte := s.kbd.take (s.kbd.length - t.kbd.length)

/-! ### Inside a step: what it does to the environment, one action after another -/

/-- What a step does to the environment: it takes the first pending character, or does an output event (15 R52, R54). -/
inductive EnvAction where
  /-- `KbdTake()`. -/
  | take
  /-- `ConPut(b)` or `ConFlush()`. -/
  | emit (e : ConEvent)
  deriving DecidableEq, Repr

/-- One action done. -/
def State.doAction (s : State) : EnvAction → State
  | .take => s.setKbd s.kbd.tail
  | .emit e => s.emit [e]

/-- The actions by which the environment of `s` becomes that of `t`, what is taken before what is sent. -/
def State.actionsTo (s t : State) : List EnvAction :=
  List.replicate (s.kbd.length - t.kbd.length) .take ++ (t.out.drop s.out.length).map .emit

/-- The actions of the step of `s`, whose next state is `t`, in their order (00_scope.md R10; 60_exceptions.md R216). A step
takes its characters before it sends anything, but for the IN that begins: its prompt comes first (45_trap.md R184). -/
def State.stepActions (s t : State) : List EnvAction :=
  if s.canFetch && decode s.fetchedWord == .inp then
    let prompted := s.afterFetch.enterTrap.putBytes params.inPrompt
    s.actionsTo prompted ++ prompted.actionsTo t
  else s.actionsTo t

/-- The core when the host stops it after the first `done` actions of its step: the environment has seen these actions. The
rest of the state the run had reached "is not defined and nothing is read from it" (15 R57); it stands here as before the
step, and `System.readout` does not show it. -/
def State.stoppedInStep (s : State) (done : Nat) : State :=
  match Sys2Proof.Machine.step s with
  | .next t => ((s.stepActions t).take done).foldl State.doAction s
  | .fault _ => s
  | .refused _ => s

/-- The machine and the world after power-up: the reset state, nothing taken. -/
def System.powerUp : System where
  phase := .loading
  core := State.reset
  steps := 0
  taken := []

/-- A run is in progress: it was started, and RS has not left RUNNING (40_cycle.md R136). -/
def System.inProgress (y : System) : Bool := y.phase == .started && y.core.runningOut

/-- The system after the core's step. The number of steps counts the steps that begin here, so a held step that goes on
keeps its number. -/
def System.afterStep (y : System) (t : State) : System :=
  let n := if y.core.canFetch then y.steps + 1 else y.steps
  { y with core := t, steps := n, taken := y.taken ++ (takenBetween y.core t).map fun c => (n, c) }

/-- The system when the host stops the core after `done` actions of a step. A core that takes no step is just there. -/
def System.stoppedAt (y : System) (done : Nat) : System :=
  if y.inProgress && done != 0 then y.afterStep (y.core.stoppedInStep done) else y

/-- The system after an event; none if the event cannot happen there: a load or a start that is not between reset and
start (15 R55; 70 R241), a step that is not one of a started, RUNNING core (40 R130), a cut of no run. A run that has ended
keeps its final state (40 R136), so the model lets no cut follow it, while a run that is still being loaded can be cut: DESIGN
CHOICE (log 22); safe. -/
def System.react (y : System) : HostEvent → Option System
  | .reset done => some { phase := .loading, core := (y.stoppedAt done).core.assertReset, steps := 0, taken := [] }
  | .load a v => if y.phase = .loading then some { y with core := y.core.loadCell a v } else none
  | .start => if y.phase = .loading then some { y with phase := .started } else none
  | .key c => some { y with core := y.core.keyArrives c }
  | .step =>
    if y.inProgress then
      match Sys2Proof.Machine.step y.core with
      | .next t => some (y.afterStep t)
      | .fault _ => none
      | .refused _ => none
    else none
  | .cut done =>
    if y.phase = .loading || y.inProgress then some { y.stoppedAt done with phase := .abandoned } else none

/-- The state read-out: only of a started run, and only when the core is not running (15 R51, R55); an abandoned run has
none (15 R57). -/
def System.readout (y : System) : Option State :=
  if y.phase = .started && !y.core.runningOut then some y.core else none

/-- The final state of a run (15 R56). -/
structure FinalState where
  /-- HALTED or FAULTED. -/
  rs : RunState
  /-- R0 to R7. -/
  regs : Vector Word 8
  /-- The program counter. -/
  pc : Word
  /-- COND. -/
  cond : Word
  /-- The memory. -/
  mem : Memory
  deriving DecidableEq, Repr

/-- What a run is observed by (15 R56): the output record, the characters taken, and the final state if there is one. -/
structure Observation where
  /-- The output record. -/
  output : List ConEvent
  /-- The characters taken and the steps that took them. -/
  taken : List (Nat × Byte)
  /-- The final state; none if the run has not ended, or has no final state. -/
  final : Option FinalState
  deriving DecidableEq, Repr

/-- What the system is observed by so far. -/
def System.observe (y : System) : Observation where
  output := y.core.out
  taken := y.taken
  final := y.readout.map fun t => { rs := t.rs, regs := t.regs, pc := t.pc, cond := t.cond, mem := t.mem }

end Sys2Proof.Machine
end

