-- ==== Sys2Proof/Safety.lean ====
section
/-! DEFINITION. The terms claims use: the machine's invariant, safe states, and what an instruction may touch. -/

namespace Sys2Proof.Machine

/-- "exactly one of the three flags is asserted": COND is one of its three legal values (spec 10_state.md R27). -/
def State.condLegal (s : State) : Bool :=
  s.cond == params.flPos || s.cond == params.flZro || s.cond == params.flNeg

/-- The invariant of the machine: the memory is in canonical form, COND is legal (10 R27), and only a RUNNING core has a
TRAP step in progress (40_cycle.md R135, R136). -/
def State.Inv (s : State) : Prop :=
  s.mem.wf = true ∧ s.condLegal = true ∧ (s.activity ≠ .idle → s.rs = .running)

/-- A state a correct run may be in: "a claim that a program runs correctly must show" that FAULTED is never reached
(60_exceptions.md R212). -/
def State.safe (s : State) : Bool := s.rs != .faulted

/-- `t` and `s` hold the same in every register but those of `rs`. -/
def SameRegsExcept (rs : List Reg) (s t : State) : Prop := ∀ r, r ∉ rs → t.reg r = s.reg r

/-- Every cell reads in `t` as in `s` but those of `as`. -/
def SameCellsExcept (as : List Word) (s t : State) : Prop := ∀ a, a ∉ as → t.cell a = s.cell a

/-- The two devices are as they were: no character taken, no output event (spec 15_interfaces.md R52, R54). -/
def SameDevices (s t : State) : Prop := t.kbd = s.kbd ∧ t.out = s.out

/-- The run goes on as before: the same run state, and no TRAP step in progress that was not. -/
def SameRun (s t : State) : Prop := t.rs = s.rs ∧ t.activity = s.activity

/-- Nothing but registers and flags has changed: every register but those of `rs`, the pc, every cell, the devices and the
run are as they were. -/
def RegisterOnly (rs : List Reg) (s t : State) : Prop :=
  SameRegsExcept rs s t ∧ t.pc = s.pc ∧ SameCellsExcept [] s t ∧ SameDevices s t ∧ SameRun s t

/-- COND `c` says what the two's-complement number `v` is: zero, negative or positive (10 R28: it "reflects the
two's-complement sign/zero-ness of the value just written"). -/
def FlagsFor (v c : Word) : Prop :=
  (v.toInt = 0 ∧ c = params.flZro) ∨ (v.toInt < 0 ∧ c = params.flNeg) ∨ (0 < v.toInt ∧ c = params.flPos)

/-- `base` plus the signed number `off`, modulo 65536 (20_memory.md R90). -/
def wordPlus (base : Word) (off : Int) : Word := BitVec.ofInt 16 (base.toNat + off)

/-- The cells a read of `ea` may rewrite: none, unless it polls (20 R71, R81). -/
def cellsPolledAt (ea : Word) : List Word := if ea = params.kbsrAddr then [params.kbsrAddr, params.kbdrAddr] else []

/-- A load of DR from `ea` (43_load.md R160 to R162): the value `MemRead` answers and its flags, the effect of that one
read on the memory and the input device, and nothing else. -/
def LoadsFrom (dr : Reg) (ea : Word) (s t : State) : Prop :=
  t.reg dr = (s.memRead ea).1 ∧ FlagsFor (t.reg dr) t.cond ∧ SameRegsExcept [dr] s t ∧ t.pc = s.pc ∧
    t.mem = (s.memRead ea).2.mem ∧ SameCellsExcept (cellsPolledAt ea) s t ∧
    t.kbd = (s.memRead ea).2.kbd ∧ (ea ≠ params.kbsrAddr → t.kbd = s.kbd) ∧ t.out = s.out ∧ SameRun s t

/-- A store of `v` to `ea` (44_store.md R170 to R172): that cell, and nothing else. -/
def StoresTo (ea v : Word) (s t : State) : Prop :=
  t.cell ea = v ∧ SameCellsExcept [ea] s t ∧ SameRegsExcept [] s t ∧ t.cond = s.cond ∧ t.pc = s.pc ∧
    SameDevices s t ∧ SameRun s t

/-- The register whose new value sets the flags (10 R29), if the instruction sets them. -/
def flagRegister : Instr → Option Reg
  | .addReg dr _ _ | .addImm dr _ _ | .andReg dr _ _ | .andImm dr _ _ | .not dr _ | .ld dr _ | .ldi dr _
  | .ldr dr _ _ | .lea dr _ => some dr
  | .getc | .inp => some 0#3
  | .trap v => if v = params.tvGetc ∨ v = params.tvIn then some 0#3 else none
  | .br _ _ _ _ | .st _ _ | .jsr _ | .jsrr _ | .str _ _ _ | .rti | .sti _ _ | .jmp _ | .res | .out | .puts
  | .putsp | .halt => none

/-- The registers an instruction writes (10 R22). -/
def writtenRegisters : Instr → List Reg
  | .addReg dr _ _ | .addImm dr _ _ | .andReg dr _ _ | .andImm dr _ _ | .not dr _ | .ld dr _ | .ldi dr _
  | .ldr dr _ _ | .lea dr _ => [dr]
  | .jsr _ | .jsrr _ | .out | .puts | .putsp | .halt => [7#3]
  | .getc | .inp => [7#3, 0#3]
  | .trap v => if v = params.tvGetc ∨ v = params.tvIn then [7#3, 0#3] else [7#3]
  | .br _ _ _ _ | .st _ _ | .str _ _ _ | .rti | .sti _ _ | .jmp _ | .res => []

/-- The cell an instruction stores to, if it is a store: the same address its meaning uses (44 R170 to R172). -/
def storeAddress : Instr → State → Option Word
  | .st _ off, s => some (s.pcRel9 off)
  | .sti _ off, s => some (s.indirect off).1
  | .str _ base off, s => some (s.baseOffset base off)
  | .br _ _ _ _, _ | .addReg _ _ _, _ | .addImm _ _ _, _ | .ld _ _, _ | .jsr _, _ | .jsrr _, _ | .andReg _ _ _, _
  | .andImm _ _ _, _ | .ldr _ _ _, _ | .rti, _ | .not _ _, _ | .ldi _ _, _ | .jmp _, _ | .res, _ | .lea _ _, _
  | .trap _, _ | .getc, _ | .out, _ | .puts, _ | .inp, _ | .putsp, _ | .halt, _ => none

/-- The register whose value a store stores (44 R170 to R172). -/
def storedRegister : Instr → Option Reg
  | .st sr _ | .sti sr _ | .str sr _ _ => some sr
  | .br _ _ _ _ | .addReg _ _ _ | .addImm _ _ _ | .ld _ _ | .jsr _ | .jsrr _ | .andReg _ _ _ | .andImm _ _ _
  | .ldr _ _ _ | .rti | .not _ _ | .ldi _ _ | .jmp _ | .res | .lea _ _ | .trap _ | .getc | .out | .puts | .inp
  | .putsp | .halt => none

/-- The addresses an instruction reads through the mapped-I/O policy, in order (20 R76, R85). -/
def readAddresses : Instr → State → List Word
  | .ld _ off, s => [s.pcRel9 off]
  | .ldi _ off, s => [s.pcRel9 off, (s.indirect off).1]
  | .ldr _ base off, s => [s.baseOffset base off]
  | .sti _ off, s => [s.pcRel9 off]
  | .br _ _ _ _, _ | .addReg _ _ _, _ | .addImm _ _ _, _ | .st _ _, _ | .jsr _, _ | .jsrr _, _ | .andReg _ _ _, _
  | .andImm _ _ _, _ | .str _ _ _, _ | .rti, _ | .not _ _, _ | .jmp _, _ | .res, _ | .lea _ _, _
  | .trap _, _ | .getc, _ | .out, _ | .puts, _ | .inp, _ | .putsp, _ | .halt, _ => []

/-- The instruction is one of the service calls that produce output (15 R54), or a TRAP whose vector selects one. -/
def producesOutput : Instr → Bool
  | .out | .puts | .inp | .putsp | .halt => true
  | .trap v => isServiceVector v && v != params.tvGetc
  | .br _ _ _ _ | .addReg _ _ _ | .addImm _ _ _ | .ld _ _ | .st _ _ | .jsr _ | .jsrr _ | .andReg _ _ _
  | .andImm _ _ _ | .ldr _ _ _ | .str _ _ _ | .rti | .not _ _ | .ldi _ _ | .sti _ _ | .jmp _ | .res | .lea _ _
  | .getc => false

end Sys2Proof.Machine
end

