-- ==== Sys2Proof/Certificates/Slice0/Obligations.lean ====
section
/-! DEFINITION. The statements for the provers, from the spec's numbered rules. `exec` runs with pc already incremented
(spec 40_cycle.md R131), so `s.pc` in a statement about `exec` is the instruction's address plus one. A value that the spec
marks as general knowledge is written through `params`, or its docstring says so. -/

open Sys2Proof Sys2Proof.Machine

/-! ### Encoding -/

/-- Every well-formed instruction, with every operand at every value, is what its encoded word decodes to (spec
30_encoding.md, the formats of R101 and the total decoder of R113; opcode values and field positions are the spec's
general-knowledge numbers D6, D7: log 1). -/
def Obligations.DecodeOfEncodeIsIdentity : Prop := ∀ i : Instr, i.wf = true → decode (encode i) = i

/-- Every word decodes to a well-formed instruction, which is encoded as a word that has the same examined bits (30, R106,
R113; D13: log 13). -/
def Obligations.DecodedInstructionsReencode : Prop :=
  ∀ w : Word, (decode w).wf = true ∧ encode (decode w) &&& examinedBits (decode w) = w &&& examinedBits (decode w)

/-- The bits shown as a dash in the formats are not examined: two words that agree on the examined bits of the first one's
instruction decode to the same instruction (30, R106; D13: log 13). -/
def Obligations.IgnoredBitsDoNotMatter : Prop :=
  ∀ w w' : Word, w &&& examinedBits (decode w) = w' &&& examinedBits (decode w) → decode w' = decode w

/-- Words of the spec's decoding table (95_test_vectors.md 2.1), one or more for each constructor of `Instr`. They rest on the
spec's general-knowledge opcode values and field positions D6 and D7 (log 1) and trap vectors D9 (log 5), and the words with
ignored bits set on D13 (log 13). -/
def Obligations.SampleWordsDecode : Prop :=
  decode 0x0403 = .br false true false 3 ∧ decode 0x0FFF = .br true true true 0x1FF ∧ decode 0x1401 = .addReg 2 0 1 ∧
  decode 0x171D = .addReg 3 4 5 ∧ decode 0x1270 = .addImm 1 1 0x10 ∧ decode 0x5642 = .andReg 3 1 2 ∧ decode 0x5020 = .andImm 0 0 0 ∧
  decode 0x923F = .not 1 0 ∧ decode 0x9200 = .not 1 0 ∧ decode 0x4C00 = .jsr 0x400 ∧ decode 0x46BF = .jsrr 2 ∧
  decode 0xCEFF = .jmp 3 ∧ decode 0x2205 = .ld 1 5 ∧ decode 0xA402 = .ldi 2 2 ∧ decode 0x673F = .ldr 3 4 0x3F ∧
  decode 0xE002 = .lea 0 2 ∧ decode 0x3204 = .st 1 4 ∧ decode 0xB201 = .sti 1 1 ∧ decode 0x7283 = .str 1 2 3 ∧
  decode 0xF020 = .getc ∧ decode 0xF021 = .out ∧ decode 0xF022 = .puts ∧ decode 0xF023 = .inp ∧ decode 0xF024 = .putsp ∧
  decode 0xFA25 = .halt ∧ decode 0xF0FF = .trap 0xFF ∧ decode 0x8FFF = .rti ∧ decode 0xD123 = .res

/-- The illegal encodings are exactly the words 0x8000 to 0x8FFF and 0xD000 to 0xDFFF (30, R107; that the second range is
0xD is the spec's D6: log 1). -/
def Obligations.IllegalWordsAreTwoRanges : Prop :=
  ∀ w : Word, (decode w = .rti ∨ decode w = .res) ↔
    (0x8000 ≤ w.toNat ∧ w.toNat ≤ 0x8FFF) ∨ (0xD000 ≤ w.toNat ∧ w.toNat ≤ 0xDFFF)

/-- `sext_N`: the number with the field's bits in the low places and its top bit above, which is the same signed value, for
the four widths of the machine; and the law for the low k bits of any 16-bit value (00_scope.md R8). -/
def Obligations.SignExtensionKeepsTheSignedValue : Prop :=
  (∀ f : BitVec 5, sext f = if f.getLsbD 4 then BitVec.ofNat 16 (f.toNat + (65536 - 2 ^ 5)) else BitVec.ofNat 16 f.toNat) ∧
  (∀ f : BitVec 6, sext f = if f.getLsbD 5 then BitVec.ofNat 16 (f.toNat + (65536 - 2 ^ 6)) else BitVec.ofNat 16 f.toNat) ∧
  (∀ f : BitVec 9, sext f = if f.getLsbD 8 then BitVec.ofNat 16 (f.toNat + (65536 - 2 ^ 9)) else BitVec.ofNat 16 f.toNat) ∧
  (∀ f : BitVec 11,
    sext f = if f.getLsbD 10 then BitVec.ofNat 16 (f.toNat + (65536 - 2 ^ 11)) else BitVec.ofNat 16 f.toNat) ∧
  (∀ (v : Word) (k : Nat), k ≤ 16 → (sext (v.extractLsb' 0 k)).toInt = (v.extractLsb' 0 k).toInt)

/-! ### Registers, flags, memory -/

/-- A register write changes that register only and no flag; a register reads what was last written to it; no register is
hardwired (10_state.md R21). -/
def Obligations.RegisterWriteChangesOneRegister : Prop :=
  ∀ (s : State) (r : Reg) (v : Word), (s.setReg r v).reg r = v ∧ SameRegsExcept [r] s (s.setReg r v) ∧
    (s.setReg r v).cond = s.cond ∧ (s.setReg r v).pc = s.pc ∧ SameCellsExcept [] s (s.setReg r v) ∧
    SameDevices s (s.setReg r v) ∧ SameRun s (s.setReg r v)

/-- `setcc(v)` overwrites COND with ZERO, NEGATIVE or POSITIVE as `v` is zero, has bit 15 set, or neither, and changes
nothing else; and an instruction that updates the flags does so from the new content of its destination register (10
R28). For GETC and IN this is the completed call. -/
def Obligations.SetccFollowsTheWrittenValue : Prop :=
  (∀ (s : State) (v : Word),
    (s.setcc v).cond = (if v = 0x0000#16 then params.flZro else if v.getLsbD 15 then params.flNeg else params.flPos) ∧
      RegisterOnly [] s (s.setcc v)) ∧
  (∀ (i : Instr) (s t : State) (r : Reg), flagRegister i = some r → (i.opcode = .trap → s.kbd ≠ []) →
    exec i s = .next t → r ∈ writtenRegisters i ∧ t.cond = (s.setcc (t.reg r)).cond)

/-- COND is written by exactly ADD, AND, NOT, LD, LDI, LDR, LEA, from the value written to DR, and by GETC and IN, from the
value written to R0 when they complete; by nothing else. It is read by BR alone: no other instruction does anything else
in a state that differs in COND only, and BR can. A held GETC or IN that goes on obeys the same rule (10 R29). -/
def Obligations.CondIsWrittenByExactlyTheFlagSetters : Prop :=
  (∀ (i : Instr) (s t : State), exec i s = .next t →
    (flagRegister i = none → t.cond = s.cond) ∧
    (∀ r, flagRegister i = some r →
      (i.opcode = .trap ∧ s.kbd = [] → t.cond = s.cond) ∧
      (¬ (i.opcode = .trap ∧ s.kbd = []) → FlagsFor (t.reg r) t.cond))) ∧
  (∀ (i : Instr) (s : State) (c : Word), i.opcode ≠ .br →
    ∃ t t', exec i s = .next t ∧ exec i (s.setCond c) = .next t' ∧ t'.setCond c = t.setCond c) ∧
  (∃ (n z p : Bool) (off : BitVec 9) (s t t' : State) (c : Word), exec (.br n z p off) s = .next t ∧
    exec (.br n z p off) (s.setCond c) = .next t' ∧ t'.pc ≠ t.pc) ∧
  (∀ s : State, ((s.activity = .getc ∨ s.activity = .input) ∧ s.kbd ≠ [] →
      FlagsFor (s.resumeService.reg 0#3) s.resumeService.cond) ∧
    (¬ ((s.activity = .getc ∨ s.activity = .input) ∧ s.kbd ≠ []) → s.resumeService.cond = s.cond))

/-- The four operand addresses as numbers: pc plus the signed 9-bit or 11-bit offset, a register plus the signed 6-bit
offset, each modulo 65536 (43_load.md, R164; 20_memory.md, R90: inferences the spec marks as derived). -/
def Obligations.AddressesWrapModulo65536 : Prop :=
  ∀ (s : State), (∀ off : BitVec 9, s.pcRel9 off = wordPlus s.pc off.toInt) ∧
    (∀ off : BitVec 11, s.pcRel11 off = wordPlus s.pc off.toInt) ∧
    (∀ (base : Reg) (off : BitVec 6), s.baseOffset base off = wordPlus (s.reg base) off.toInt)

/-- `MemRead`, its value and its effects, at the status cell with and without a pending character and at every other
address (20, R71, R72). That the whole status cell becomes `KBSR_READY` and the data cell's high byte 0 are the spec's
decisions D10 and D11 (logs 4, 12). -/
def Obligations.MemReadPollsAtTheStatusCellOnly : Prop :=
  ∀ s : State, s.mem.wf = true →
    (∀ a, a ≠ params.kbsrAddr → s.memRead a = (s.cell a, s)) ∧
    (s.kbd = [] → ∃ t, s.memRead params.kbsrAddr = (0x0000#16, t) ∧ t.cell params.kbsrAddr = 0x0000#16 ∧
      SameCellsExcept [params.kbsrAddr] s t ∧ SameRegsExcept [] s t ∧ t.cond = s.cond ∧ t.pc = s.pc ∧
      SameDevices s t ∧ SameRun s t) ∧
    (∀ c q, s.kbd = c :: q → ∃ t, s.memRead params.kbsrAddr = (params.kbsrReady, t) ∧
      t.cell params.kbsrAddr = params.kbsrReady ∧ (t.cell params.kbdrAddr).toNat = c.toNat ∧
      SameCellsExcept [params.kbsrAddr, params.kbdrAddr] s t ∧ SameRegsExcept [] s t ∧ t.cond = s.cond ∧
      t.pc = s.pc ∧ t.kbd = q ∧ t.out = s.out ∧ SameRun s t)

/-- `MemWrite(a, 16, v)` stores v in cell a, at every address, the keyboard cells too, and touches nothing else: no other
cell, no register, no device (20 R74). The premise is the canonical form, an invariant of the model. -/
def Obligations.MemWriteStoresAtEveryAddress : Prop :=
  ∀ (s : State) (a v : Word), s.mem.wf = true → StoresTo a v s (s.memWrite a v)

/-- The one address with a side effect on read is `KBSR_ADDR`: reading it twice can give two answers and it may consume a
character, rewriting the two keyboard cells only; every other read, of `KBDR_ADDR` too, answers the stored content and
changes nothing, so it is idempotent; a write does nothing beyond storing (20 R81). -/
def Obligations.OnlyStatusReadHasASideEffect : Prop :=
  (∃ s : State, (s.memRead params.kbsrAddr).1 ≠ ((s.memRead params.kbsrAddr).2.memRead params.kbsrAddr).1 ∧
    (s.memRead params.kbsrAddr).2.kbd ≠ s.kbd ∧
    (s.memRead params.kbsrAddr).2.cell params.kbsrAddr ≠ s.cell params.kbsrAddr ∧
    (s.memRead params.kbsrAddr).2.cell params.kbdrAddr ≠ s.cell params.kbdrAddr) ∧
  (∀ s : State, SameCellsExcept [params.kbsrAddr, params.kbdrAddr] s (s.memRead params.kbsrAddr).2) ∧
  (∀ (s : State) (a : Word), a ≠ params.kbsrAddr → s.memRead a = (s.cell a, s)) ∧
  params.kbdrAddr ≠ params.kbsrAddr ∧
  (∀ (s : State) (a v : Word), SameCellsExcept [a] s (s.memWrite a v) ∧ SameRegsExcept [] s (s.memWrite a v) ∧
    (s.memWrite a v).cond = s.cond ∧ (s.memWrite a v).pc = s.pc ∧ SameDevices s (s.memWrite a v) ∧
    SameRun s (s.memWrite a v))

/-- The coupling of the two keyboard cells: a data read takes nothing and answers the same again; after one poll it answers
the character taken; two polls with two characters pending lose the first for good (20, R73 and R82: consequences the spec
marks as derived). -/
def Obligations.DataCellHoldsTheLastPolledCharacter : Prop :=
  ∀ s : State, s.mem.wf = true →
    (s.memRead params.kbdrAddr = (s.cell params.kbdrAddr, s)) ∧
    (∀ c q, s.kbd = c :: q →
      ((s.memRead params.kbsrAddr).2.memRead params.kbdrAddr).1 = c.setWidth 16 ∧
      (((s.memRead params.kbsrAddr).2.memRead params.kbdrAddr).2.memRead params.kbdrAddr).1 = c.setWidth 16) ∧
    (∀ c d q, s.kbd = c :: d :: q →
      (((s.memRead params.kbsrAddr).2.memRead params.kbsrAddr).2.memRead params.kbdrAddr).1 = d.setWidth 16 ∧
      ((s.memRead params.kbsrAddr).2.memRead params.kbsrAddr).2.kbd = q)

/-! ### The step -/

/-- Fetch: a step of a RUNNING core first reads the word at pc through the mapped-I/O policy, then increments pc modulo
65536, whatever the word is, and then does what the decoded instruction means (40_cycle.md R131). "No TRAP step in
progress" (`activity`) is the model's form of "the first action of a step": a held step is no new step. -/
def Obligations.StepFetchesIncrementsAndRunsTheDecodedInstruction : Prop :=
  ∀ (s : State) (i : Instr), s.rs = .running → s.activity = .idle → decode (s.memRead s.pc).1 = i →
    step s = exec i ((s.memRead s.pc).2.setPc (s.pc + 1#16)) ∧
    (s.pc + 1#16).toNat = (s.pc.toNat + 1) % 65536

/-- A HALTED core changes nothing, and a FAULTED one takes no step: the model answers the fault that carries the offending
word `M[pc - 1]` (40, R130; 60_exceptions.md, R210 and D25). How the model answers is its own choice: log 10. -/
def Obligations.StoppedCoreTakesNoStep : Prop :=
  ∀ s : State, (s.rs = .halted → step s = .next s) ∧
    (s.rs = .faulted → step s = .fault (.decodeFault (s.cell (s.pc - 1#16))))

/-- A held GETC or IN: with no character the core stays exactly as it is; with one it takes it and completes (15, R53; 45,
R181 and R184; the field that holds the wait is the model's: log 8; zero extension is D11: log 12; one flush is D17: log 16). -/
def Obligations.HeldCallCompletesWhenACharacterArrives : Prop :=
  ∀ s : State, s.rs = .running → s.activity = .getc ∨ s.activity = .input →
    (s.kbd = [] → step s = .next s) ∧
    (∀ c q, s.kbd = c :: q → ∃ t, step s = .next t ∧ (t.reg 0#3).toNat = c.toNat ∧ FlagsFor (t.reg 0#3) t.cond ∧
      SameRegsExcept [0#3] s t ∧ t.pc = s.pc ∧ SameCellsExcept [] s t ∧ t.kbd = q ∧ t.rs = .running ∧ t.activity = .idle ∧
      t.out = s.out ++ (if s.activity = .input then [.put c, .flush] else []))

/-- It makes no difference whether the character of GETC or IN is pending before the call or arrives while the core is held
(15, R52 and R53; log 6). -/
def Obligations.ArrivalDuringHoldEqualsArrivalBeforeTheCall : Prop :=
  ∀ (i : Instr) (s : State) (c : Byte), i = .getc ∨ i = .inp → s.rs = .running → s.kbd = [] →
    ∃ t u, exec i s = .next t ∧ t.activity ≠ .idle ∧ step (t.keyArrives c) = .next u ∧
      exec i (s.keyArrives c) = .next u

/-- The pc is written by the increment of every step, and after that by a taken BR, JMP, JSR and JSRR with the values given
here and by no other instruction, TRAP among them; all sums wrap (10 R25). -/
def Obligations.PcIsWrittenByExactlyTheTransfers : Prop :=
  (∀ s : State, s.afterFetch.pc = s.pc + 1#16 ∧ (s.pc = 0xFFFF#16 → s.afterFetch.pc = 0x0000#16)) ∧
  (∀ (n z p : Bool) (off : BitVec 9) (s t : State), exec (.br n z p off) s = .next t →
    t.pc = if branchTaken n z p s.cond then wordPlus s.pc off.toInt else s.pc) ∧
  (∀ (base : Reg) (s t : State), exec (.jmp base) s = .next t → t.pc = s.reg base) ∧
  (∀ (off : BitVec 11) (s t : State), exec (.jsr off) s = .next t → t.pc = wordPlus s.pc off.toInt) ∧
  (∀ (base : Reg) (s t : State), exec (.jsrr base) s = .next t → t.pc = if base = 7#3 then s.pc else s.reg base) ∧
  (∀ (i : Instr) (s t : State), i.opcode ≠ .br ∧ i.opcode ≠ .jmp ∧ i.opcode ≠ .jsr → exec i s = .next t →
    t.pc = s.pc) ∧
  (∀ s : State, s.resumeService.pc = s.pc)

/-! ### Arithmetic and logic -/

/-- ADD, both forms: the 16-bit sum, flags from it, nothing else (41_alu.md, the pseudocode and flags of R140 and R141). -/
def Obligations.AddWritesTheWrappedSum : Prop :=
  (∀ (s : State) (dr sr1 sr2 : Reg), ∃ t, exec (.addReg dr sr1 sr2) s = .next t ∧
    (t.reg dr).toNat = ((s.reg sr1).toNat + (s.reg sr2).toNat) % 65536 ∧ FlagsFor (t.reg dr) t.cond ∧
    RegisterOnly [dr] s t) ∧
  (∀ (s : State) (dr sr1 : Reg) (imm : BitVec 5), ∃ t, exec (.addImm dr sr1 imm) s = .next t ∧
    t.reg dr = wordPlus (s.reg sr1) imm.toInt ∧ FlagsFor (t.reg dr) t.cond ∧ RegisterOnly [dr] s t)

/-- AND, both forms: bit by bit, the immediate sign-extended first; flags from it, nothing else (41, R142 and R143). -/
def Obligations.AndWritesTheBitwiseAnd : Prop :=
  (∀ (s : State) (dr sr1 sr2 : Reg), ∃ t, exec (.andReg dr sr1 sr2) s = .next t ∧
    (∀ k, (t.reg dr).getLsbD k = ((s.reg sr1).getLsbD k && (s.reg sr2).getLsbD k)) ∧ FlagsFor (t.reg dr) t.cond ∧
    RegisterOnly [dr] s t) ∧
  (∀ (s : State) (dr sr1 : Reg) (imm : BitVec 5), ∃ t, exec (.andImm dr sr1 imm) s = .next t ∧
    (∀ k, (t.reg dr).getLsbD k = ((s.reg sr1).getLsbD k && imm.getLsbD (min k 4))) ∧ FlagsFor (t.reg dr) t.cond ∧
    RegisterOnly [dr] s t)

/-- NOT: 65535 minus the source, flags from it, nothing else (41, R144). -/
def Obligations.NotWritesTheComplement : Prop :=
  ∀ (s : State) (dr sr1 : Reg), ∃ t, exec (.not dr sr1) s = .next t ∧
    (t.reg dr).toNat = 65535 - (s.reg sr1).toNat ∧ FlagsFor (t.reg dr) t.cond ∧ RegisterOnly [dr] s t

/-! ### Control transfer -/

/-- BR: pc becomes the target if the mask n*4 + z*2 + p and COND[2:0] have a bit in common, and else stays; nothing else
changes (42_control.md, R150; the alignment of mask and flags is D5, D7: logs 1, 3). -/
def Obligations.BranchFollowsMaskAndFlags : Prop :=
  ∀ (s : State) (n z p : Bool) (off : BitVec 9), ∃ t, exec (.br n z p off) s = .next t ∧
    t.pc = (if ((n.toNat * 4 + z.toNat * 2 + p.toNat) &&& (s.cond.toNat % 8)) ≠ 0 then wordPlus s.pc off.toInt
      else s.pc) ∧
    SameRegsExcept [] s t ∧ t.cond = s.cond ∧ SameCellsExcept [] s t ∧ SameDevices s t ∧ SameRun s t

/-- The truth table of BR, with COND legal, the model's invariant: n with NEGATIVE, z with ZERO, p with POSITIVE; mask 000
never, mask 111 always (42, R150; 10, R27; the table is an inference the spec marks as derived). -/
def Obligations.BranchTruthTable : Prop :=
  ∀ (s : State) (n z p : Bool), s.condLegal = true →
    (branchTaken n z p s.cond = true ↔
      (n = true ∧ s.cond = params.flNeg) ∨ (z = true ∧ s.cond = params.flZro) ∨ (p = true ∧ s.cond = params.flPos)) ∧
    branchTaken false false false s.cond = false ∧ branchTaken true true true s.cond = true

/-- JMP: pc becomes the register's value, any value, and nothing else changes (42, R151). -/
def Obligations.JumpGoesToTheRegister : Prop :=
  ∀ (s : State) (base : Reg), ∃ t, exec (.jmp base) s = .next t ∧ t.pc = s.reg base ∧ SameRegsExcept [] s t ∧
    t.cond = s.cond ∧ SameCellsExcept [] s t ∧ SameDevices s t ∧ SameRun s t

/-- JSR and JSRR: R7 holds the return address, the flags stay; JSR goes to pc plus the signed 11-bit offset; JSRR reads its
register after the write of R7, so JSRR R7 goes on with the next instruction (42, R152 and R153). -/
def Obligations.CallsLinkR7BeforeTheTransfer : Prop :=
  (∀ (s : State) (off : BitVec 11), ∃ t, exec (.jsr off) s = .next t ∧ t.reg 7#3 = s.pc ∧
    t.pc = wordPlus s.pc off.toInt ∧ SameRegsExcept [7#3] s t ∧ t.cond = s.cond ∧ SameCellsExcept [] s t ∧
    SameDevices s t ∧ SameRun s t) ∧
  (∀ (s : State) (base : Reg), ∃ t, exec (.jsrr base) s = .next t ∧ t.reg 7#3 = s.pc ∧
    (base ≠ 7#3 → t.pc = s.reg base) ∧ (base = 7#3 → t.pc = s.pc) ∧ SameRegsExcept [7#3] s t ∧ t.cond = s.cond ∧
    SameCellsExcept [] s t ∧ SameDevices s t ∧ SameRun s t)

/-! ### Loads and stores -/

/-- LD and LDR: one read of pc plus offset, or of base plus offset, into DR, with the flags of the value (43, R160 and
R162). -/
def Obligations.LoadsReadOneCell : Prop :=
  (∀ (s : State) (dr : Reg) (off : BitVec 9), ∃ t, exec (.ld dr off) s = .next t ∧ LoadsFrom dr (s.pcRel9 off) s t) ∧
  (∀ (s : State) (dr base : Reg) (off : BitVec 6), ∃ t, exec (.ldr dr base off) s = .next t ∧
    LoadsFrom dr (s.baseOffset base off) s t)

/-- LDI: the pointer read, and then the datum read in the state the pointer read left; no flag from the pointer; only the
cells those reads poll can change (43, R161; 20, R85). -/
def Obligations.LoadIndirectIsTwoChainedReads : Prop :=
  ∀ (s : State) (dr : Reg) (off : BitVec 9) (ea : Word) (u : State), s.memRead (s.pcRel9 off) = (ea, u) →
    ∃ t, exec (.ldi dr off) s = .next t ∧ LoadsFrom dr ea u t ∧ SameRegsExcept [dr] s t ∧ t.pc = s.pc ∧
      SameCellsExcept (cellsPolledAt (s.pcRel9 off) ++ cellsPolledAt ea) s t ∧
      (s.pcRel9 off ≠ params.kbsrAddr ∧ ea ≠ params.kbsrAddr → t.kbd = s.kbd) ∧ t.out = s.out ∧ SameRun s t

/-- LEA: the address itself, flags from it, no memory access, so no poll even at the status cell (43, R163). -/
def Obligations.LeaWritesTheAddress : Prop :=
  ∀ (s : State) (dr : Reg) (off : BitVec 9), ∃ t, exec (.lea dr off) s = .next t ∧
    t.reg dr = wordPlus s.pc off.toInt ∧ FlagsFor (t.reg dr) t.cond ∧ RegisterOnly [dr] s t

/-- ST and STR: the register's value in the addressed cell, nothing else, no flag, no poll (44_store.md, R170 and R172). -/
def Obligations.StoresWriteOneCell : Prop :=
  ∀ s : State, s.mem.wf = true →
    (∀ (sr : Reg) (off : BitVec 9), ∃ t, exec (.st sr off) s = .next t ∧ StoresTo (s.pcRel9 off) (s.reg sr) s t) ∧
    (∀ (sr base : Reg) (off : BitVec 6), ∃ t, exec (.str sr base off) s = .next t ∧
      StoresTo (s.baseOffset base off) (s.reg sr) s t)

/-- STI: the pointer read, and then the store in the state that read left; only the stored cell and the cells the pointer
read polls can change (44, R171). -/
def Obligations.StoreIndirectReadsThenStores : Prop :=
  ∀ (s : State) (sr : Reg) (off : BitVec 9) (ea : Word) (u : State), s.mem.wf = true →
    s.memRead (s.pcRel9 off) = (ea, u) →
    ∃ t, exec (.sti sr off) s = .next t ∧ StoresTo ea (s.reg sr) u t ∧ SameRegsExcept [] s t ∧ t.cond = s.cond ∧
      t.pc = s.pc ∧ SameCellsExcept (ea :: cellsPolledAt (s.pcRel9 off)) s t ∧
      (s.pcRel9 off ≠ params.kbsrAddr → t.kbd = s.kbd) ∧ t.out = s.out ∧ SameRun s t

/-! ### TRAP and the service calls -/

/-- A vector outside the six services is no error: R7 is written and nothing else happens (45_trap.md, R187; the six
numbers are D9: log 5). -/
def Obligations.UnknownVectorWritesR7Only : Prop :=
  ∀ (s : State) (v : Byte), v.toNat < 0x20 ∨ 0x25 < v.toNat →
    ∃ t, exec (.trap v) s = .next t ∧ t.reg 7#3 = s.pc ∧ t.cond = s.cond ∧ RegisterOnly [7#3] s t

/-- TRAP's dispatch: each of the six vectors does what its own row does; and every TRAP writes the return address to R7,
leaves pc and every cell as they were, and touches no register but R7 and R0 (45, R180, R188 and R189; the numbers are D9:
log 5). -/
def Obligations.TrapDispatchesOnTheVector : Prop :=
  (∀ s : State, exec (.trap 0x20) s = exec .getc s ∧ exec (.trap 0x21) s = exec .out s ∧
    exec (.trap 0x22) s = exec .puts s ∧ exec (.trap 0x23) s = exec .inp s ∧ exec (.trap 0x24) s = exec .putsp s ∧
    exec (.trap 0x25) s = exec .halt s) ∧
  (∀ (i : Instr) (s t : State), i.opcode = .trap → exec i s = .next t →
    t.reg 7#3 = s.pc ∧ t.pc = s.pc ∧ SameRegsExcept [0#3, 7#3] s t ∧ SameCellsExcept [] s t)

/-- GETC: with a character pending, R0 is it, zero-extended, and the flags are R0's, ZERO or POSITIVE and never NEGATIVE;
with none the core is held with R7 written and nothing else changed (45, R181; 15, R53; zero extension is D11: log 12; the
field that holds the wait is the model's: log 8). -/
def Obligations.GetcTakesACharacterOrHolds : Prop :=
  ∀ s : State,
    (∀ c q, s.kbd = c :: q → ∃ t, exec .getc s = .next t ∧ (t.reg 0#3).toNat = c.toNat ∧ t.reg 7#3 = s.pc ∧
      SameRegsExcept [0#3, 7#3] s t ∧ t.cond = (if c = 0x00#8 then params.flZro else params.flPos) ∧ t.pc = s.pc ∧
      SameCellsExcept [] s t ∧ t.kbd = q ∧ t.out = s.out ∧ t.rs = s.rs ∧ t.activity = .idle) ∧
    (s.kbd = [] → ∃ t, exec .getc s = .next t ∧ t.reg 7#3 = s.pc ∧ SameRegsExcept [7#3] s t ∧ t.cond = s.cond ∧
      t.pc = s.pc ∧ SameCellsExcept [] s t ∧ SameDevices s t ∧ t.rs = s.rs ∧ t.activity = .getc)

/-- IN: the prompt, the character, its echo, one flush, R0 and its flags; with no character pending the core is held with
the prompt sent and R7 written (45, R184; prompt text D16: log 11; flush D17: log 16; zero extension D11: log 12). -/
def Obligations.InPromptsReadsAndEchoes : Prop :=
  ∀ s : State,
    (∀ c q, s.kbd = c :: q → ∃ t, exec .inp s = .next t ∧ (t.reg 0#3).toNat = c.toNat ∧ t.reg 7#3 = s.pc ∧
      SameRegsExcept [0#3, 7#3] s t ∧ t.cond = (if c = 0x00#8 then params.flZro else params.flPos) ∧ t.pc = s.pc ∧
      SameCellsExcept [] s t ∧ t.kbd = q ∧ t.out = s.out ++ putEvents params.inPrompt ++ [.put c, .flush] ∧
      t.rs = s.rs ∧ t.activity = .idle) ∧
    (s.kbd = [] → ∃ t, exec .inp s = .next t ∧ t.reg 7#3 = s.pc ∧ SameRegsExcept [7#3] s t ∧ t.cond = s.cond ∧
      t.pc = s.pc ∧ SameCellsExcept [] s t ∧ t.kbd = [] ∧ t.out = s.out ++ putEvents params.inPrompt ∧ t.rs = s.rs ∧
      t.activity = .input)

/-- OUT: the low byte of R0 and a flush; R7; nothing else (45, R182). -/
def Obligations.OutSendsTheLowByteOfR0 : Prop :=
  ∀ s : State, ∃ t b, exec .out s = .next t ∧ b.toNat = (s.reg 0#3).toNat % 256 ∧ t.out = s.out ++ [.put b, .flush] ∧
    t.reg 7#3 = s.pc ∧ SameRegsExcept [7#3] s t ∧ t.cond = s.cond ∧ t.pc = s.pc ∧ SameCellsExcept [] s t ∧ t.kbd = s.kbd ∧
    SameRun s t

/-- PUTS: with the first zero cell k cells after the one R0 names (addresses wrapping, D15: log 14), the low bytes of those
k cells in order and then one flush, also for k = 0; raw reads, so no poll (D14: log 14); R7; nothing else (45, R183). -/
def Obligations.PutsSendsTheStringAndFlushes : Prop :=
  ∀ (s : State) (k : Nat), k < 65536 → (∀ j < k, s.cell (s.reg 0#3 + BitVec.ofNat 16 j) ≠ 0x0000#16) →
    s.cell (s.reg 0#3 + BitVec.ofNat 16 k) = 0x0000#16 →
    ∃ t, exec .puts s = .next t ∧
      t.out = s.out ++
        (List.range k).map (fun j => ConEvent.put ((s.cell (s.reg 0#3 + BitVec.ofNat 16 j)).extractLsb' 0 8)) ++ [.flush] ∧
      t.reg 7#3 = s.pc ∧ SameRegsExcept [7#3] s t ∧ t.cond = s.cond ∧ t.pc = s.pc ∧ SameCellsExcept [] s t ∧
      t.kbd = s.kbd ∧ t.rs = s.rs ∧ t.activity = .idle

/-- PUTSP: as PUTS, with the low byte of each cell and then its high byte unless that is zero (45, R185; D14, D15: log
14). -/
def Obligations.PutspSendsTwoCharactersPerCell : Prop :=
  ∀ (s : State) (k : Nat), k < 65536 → (∀ j < k, s.cell (s.reg 0#3 + BitVec.ofNat 16 j) ≠ 0x0000#16) →
    s.cell (s.reg 0#3 + BitVec.ofNat 16 k) = 0x0000#16 →
    ∃ t, exec .putsp s = .next t ∧
      t.out = s.out ++
        (List.range k).flatMap (fun j =>
          [ConEvent.put ((s.cell (s.reg 0#3 + BitVec.ofNat 16 j)).extractLsb' 0 8)] ++
          (if (s.cell (s.reg 0#3 + BitVec.ofNat 16 j)).toNat / 256 = 0 then []
            else [ConEvent.put ((s.cell (s.reg 0#3 + BitVec.ofNat 16 j)).extractLsb' 8 8)])) ++ [.flush] ∧
      t.reg 7#3 = s.pc ∧ SameRegsExcept [7#3] s t ∧ t.cond = s.cond ∧ t.pc = s.pc ∧ SameCellsExcept [] s t ∧
      t.kbd = s.kbd ∧ t.rs = s.rs ∧ t.activity = .idle

/-- PUTS and PUTSP in a memory without a zero cell never complete: after any number of further steps the core is still in
the same call, has not fetched and has sent one more lap of characters for each (40, R135; 45, R183 and R185; D15: log 14;
the lap is the model's step: log 9). -/
def Obligations.UnterminatedStringNeverCompletes : Prop :=
  ∀ (s : State) (i : Instr), i = .puts ∨ i = .putsp → s.rs = .running → (∀ a, s.cell a ≠ 0x0000#16) →
    ∃ (t : State) (lap : List ConEvent), exec i s = .next t ∧ 65536 ≤ lap.length ∧ ConEvent.flush ∉ lap ∧
      t.reg 7#3 = s.pc ∧ SameRegsExcept [7#3] s t ∧
      ∀ n, ∃ u, core.run n t = .next u ∧ u.rs = .running ∧ u.activity = (if i = .puts then .puts else .putsp) ∧
        u.regs = t.regs ∧ u.pc = s.pc ∧ u.cond = s.cond ∧ u.mem = s.mem ∧ u.kbd = s.kbd ∧
        u.out = s.out ++ (List.replicate (n + 1) lap).flatten

/-- HALT: the notice, a flush, RS = HALTED, and R7; nothing else (45, R186; notice text D16: log 11). -/
def Obligations.HaltStopsTheMachine : Prop :=
  ∀ s : State, ∃ t, exec .halt s = .next t ∧ t.rs = .halted ∧ t.out = s.out ++ putEvents params.haltNotice ++ [.flush] ∧
    t.reg 7#3 = s.pc ∧ SameRegsExcept [7#3] s t ∧ t.cond = s.cond ∧ t.pc = s.pc ∧ SameCellsExcept [] s t ∧ t.kbd = s.kbd ∧
    t.activity = s.activity

/-! ### The exception -/

/-- `raise DecodeFault` sets RS to FAULTED and nothing else (46_reserved.md R202); RTI and RES do it (46, R200 and R201); the
fetch has been done, with its poll; no further step is taken; the `fatal` output is raised. That the faulting step answers a
next state, where the spec asks a model for a fault outcome (60_exceptions.md R210, D25), and that "no further step" shows as a
stop, is the model's form (log 10). -/
def Obligations.DecodeFaultSetsFaultedAndNothingElse : Prop :=
  (∀ s : State, s.raiseDecodeFault.rs = .faulted ∧ SameRegsExcept [] s s.raiseDecodeFault ∧
    s.raiseDecodeFault.cond = s.cond ∧ s.raiseDecodeFault.pc = s.pc ∧ SameCellsExcept [] s s.raiseDecodeFault ∧
    SameDevices s s.raiseDecodeFault ∧ s.raiseDecodeFault.activity = s.activity ∧
    s.raiseDecodeFault.fatalOut = true ∧ ¬ ∃ u, step s.raiseDecodeFault = .next u) ∧
  (∀ s : State, exec .rti s = .next s.raiseDecodeFault ∧ exec .res s = .next s.raiseDecodeFault) ∧
  (∀ s : State, s.rs = .running → s.activity = .idle →
    decode (s.memRead s.pc).1 = .rti ∨ decode (s.memRead s.pc).1 = .res →
    ∃ t, step s = .next t ∧ t = ((s.memRead s.pc).2.setPc (s.pc + 1#16)).raiseDecodeFault)

/-- After a DecodeFault, from a state with a canonical memory, the frozen state still shows the offending word at `pc - 1`,
also when it was fetched from the status cell; and the model's stop carries it (60, R210 and D25; the stop is the model's:
log 10). -/
def Obligations.OffendingWordStaysReadable : Prop :=
  ∀ s t : State, s.mem.wf = true → s.rs = .running → step s = .next t → t.rs = .faulted →
    t.cell (t.pc - 1#16) = (s.memRead s.pc).1 ∧ t.pc = s.pc + 1#16 ∧
      step t = .fault (.decodeFault (s.memRead s.pc).1)

/-- The model's step of a RUNNING core always answers a next state, which is the model's choice: the spec gives a held GETC or
IN no enabled step (15, R53; log 8) and an endless PUTS or PUTSP no outcome (40, R135; log 9), and makes the fault an outcome
of its own (60, R210; log 10). That state is FAULTED exactly if a word with opcode 1000 or 1101 was fetched: no address, no
arithmetic, no vector, no ignored bit and no lack of input faults (60, R213: a derived rule; opcode 1101 is D6: log 1). -/
def Obligations.OnlyReservedOpcodesFault : Prop :=
  ∀ s : State, s.rs = .running → ∃ t, step s = .next t ∧
    (t.rs = .faulted ↔ s.activity = .idle ∧
      ((s.memRead s.pc).1.toNat / 4096 = 0b1000 ∨ (s.memRead s.pc).1.toNat / 4096 = 0b1101))

/-- The transitions of RS: a step of a RUNNING core leaves it RUNNING, or HALTED if it fetched a HALT, or FAULTED if it
fetched a reserved opcode; of all the host's and the devices' events only a step changes RS while it is RUNNING, and only a
reset when it is HALTED or FAULTED, and reset makes it RUNNING (10, R31 and D3; the events are the model's form: log 15). -/
def Obligations.RunStateTransitions : Prop :=
  (∀ s t : State, step s = .next t → t.rs = s.rs ∨
    (s.rs = .running ∧ s.activity = .idle ∧ t.rs = .halted ∧ decode (s.memRead s.pc).1 = .halt) ∨
    (s.rs = .running ∧ s.activity = .idle ∧ t.rs = .faulted ∧
      (decode (s.memRead s.pc).1 = .rti ∨ decode (s.memRead s.pc).1 = .res))) ∧
  (∀ s : State, s.rs = .running → s.activity = .idle → decode (s.memRead s.pc).1 = .halt →
    ∃ t, step s = .next t ∧ t.rs = .halted) ∧
  (∀ (y z : System) (e : HostEvent), y.react e = some z → z.core.rs = y.core.rs ∨
    (e = .step ∧ y.core.rs = .running) ∨ ∃ n, e = .reset n) ∧
  (∀ (y z : System) (n : Nat), y.react (.reset n) = some z → z.core.rs = .running)

/-! ### Whole-machine rules -/

/-- Which registers an instruction writes: no other register ever changes (10, R22: a table the spec marks as derived). -/
def Obligations.RegistersChangeOnlyAsListed : Prop :=
  ∀ (i : Instr) (s t : State), exec i s = .next t → SameRegsExcept (writtenRegisters i) s t

/-- A cell changes only by a store to it, or, if it is a keyboard cell, by a read of the status cell (10, the table of
section 1; 20, R84). -/
def Obligations.CellsChangeOnlyByStoresAndPolls : Prop :=
  ∀ (i : Instr) (s t : State) (a : Word), exec i s = .next t → storeAddress i s ≠ some a →
    (a = params.kbsrAddr ∨ a = params.kbdrAddr → params.kbsrAddr ∉ readAddresses i s) → t.cell a = s.cell a

/-- Output is produced by OUT, PUTS, IN, PUTSP and HALT alone, never by a store or a load, and the record only grows (15,
R54; D24: log 16). -/
def Obligations.OnlyServicesProduceOutput : Prop :=
  (∀ (i : Instr) (s t : State), exec i s = .next t → producesOutput i = false → t.out = s.out) ∧
  (∀ s t : State, step s = .next t → s.out <+: t.out)

/-- A step takes at most one character, the first pending one, and leaves the others in their order (15, R52 and R53; that
no step polls twice follows from what the status cell can answer). -/
def Obligations.AStepTakesAtMostTheFirstCharacter : Prop :=
  ∀ s t : State, s.mem.wf = true → step s = .next t → t.kbd = s.kbd ∨ t.kbd = s.kbd.tail

/-- A store is seen by the very next fetch: when ST, STI or STR stores to the cell after itself, the next step fetches the
stored register's value and runs it (20, R88: an inference the spec marks as derived). That cell is not the status cell, from
which no stored word is ever fetched (20, R83). -/
def Obligations.StoreIsSeenByTheNextFetch : Prop :=
  ∀ (s : State) (sr : Reg), s.mem.wf = true → s.rs = .running → s.activity = .idle →
    storedRegister (decode s.fetchedWord) = some sr →
    storeAddress (decode s.fetchedWord) s.afterFetch = some (s.pc + 1#16) → s.pc + 1#16 ≠ params.kbsrAddr →
    ∃ t, step s = .next t ∧ t.pc = s.pc + 1#16 ∧ t.fetchedWord = s.reg sr ∧
      step t = exec (decode (s.reg sr)) (t.setPc (t.pc + 1#16))

/-! ### Invariant -/

/-- Every step keeps the invariant: canonical memory, exactly one flag asserted, and a TRAP in progress only in a RUNNING
core, from every state that meets it (10, R27 "Invariant"; 40, R135; log 18 for the form of memory). -/
def Obligations.StepKeepsTheInvariant : Prop := ∀ s t : State, s.Inv → step s = .next t → t.Inv

/-- The state after reset meets the invariant, and so does every launch state (70_reset_and_hazards.md, R240, R241). -/
def Obligations.LaunchStatesMeetTheInvariant : Prop :=
  State.reset.Inv ∧ ∀ (images : List (List Byte)) (s : State), State.launch images = some s → s.Inv

/-- Whatever the host and the devices do, and in whatever order, the invariant stays (15, R50, R51, R55; log 15). -/
def Obligations.HostEventsKeepTheInvariant : Prop :=
  ∀ (y z : System) (e : HostEvent), y.core.Inv → y.react e = some z → z.core.Inv

/-! ### Reset, launch and host -/

/-- At machine start every general-purpose register and every cell is 0x0000, pc is `PC_RESET` = 0x0000, COND is `FL_ZRO`,
which is not the number 0, and RS is RUNNING; the loader then changes memory only, so a launched machine starts at that pc
and not at an image's origin (10 R37). -/
def Obligations.ResetStateIsAsTheSpecSays : Prop :=
  ((∀ r, State.reset.reg r = 0x0000#16) ∧ State.reset.pc = params.pcReset ∧ params.pcReset = 0x0000#16 ∧
    State.reset.cond = params.flZro ∧ params.flZro ≠ 0x0000#16 ∧ State.reset.rs = .running ∧
    ∀ a, State.reset.cell a = 0x0000#16) ∧
  (∀ (images : List (List Byte)) (s : State), State.launch images = some s → s = State.reset.setMem s.mem)

/-- The `reset` port works in any state: everything of the core at its reset value, the pending characters and the output
record untouched (70, R240; D21: log 17). -/
def Obligations.ResetPortRestoresTheCoreOnly : Prop :=
  ∀ s : State, (∀ r, s.assertReset.reg r = 0x0000#16) ∧ s.assertReset.pc = params.pcReset ∧
    s.assertReset.cond = params.flZro ∧ s.assertReset.rs = .running ∧ (∀ a, s.assertReset.cell a = 0x0000#16) ∧
    s.assertReset.activity = .idle ∧ SameDevices s s.assertReset

/-- The loader's contract: the image's first two bytes are the origin, big-endian; after loading, cell origin + i holds the
i-th word, for every i with origin + i at most 0xFFFF; no other cell changes; an image of fewer than two bytes fails (70,
R242; corner cases D22: log 17). -/
def Obligations.LoaderPlacesTheImage : Prop :=
  ∀ (m : Memory), m.wf = true →
    (∀ (hi lo : Byte) (body : List Byte), ∃ m', loadImage m (hi :: lo :: body) = some m' ∧ m'.wf = true ∧
      (∀ i x y, body[2 * i]? = some x → body[2 * i + 1]? = some y → hi.toNat * 256 + lo.toNat + i ≤ 0xFFFF →
        (m'.read (hi.toNat * 256 + lo.toNat + i)).toNat = x.toNat * 256 + y.toNat) ∧
      (∀ a, a < hi.toNat * 256 + lo.toNat ∨ hi.toNat * 256 + lo.toNat + body.length / 2 ≤ a ∨ 0xFFFF < a →
        m'.read a = m.read a)) ∧
    (∀ bytes : List Byte, bytes.length < 2 → loadImage m bytes = none)

/-- The walk over zero cells: from the reset state with any memory whose first n cells are zero, n steps bring pc to n and
change nothing else (70, R244: an inference the spec marks as derived; that opcode 0000 is BR is D6: log 1). The status cell
is not among them. -/
def Obligations.ZeroCellsAreWalkedOver : Prop :=
  ∀ (m : Memory) (n : Nat), n ≤ 0xFE00 → (∀ a < n, m.read a = 0x0000#16) →
    core.run n (State.reset.setMem m) = .next ((State.reset.setMem m).setPc (BitVec.ofNat 16 n))

/-- The word `withFetchWord` places is the one the very next step fetches and runs, at every pc but the status cell's, with
nothing else changed but the run state and a call in progress (the model's own operation: log 20). -/
def Obligations.PlacedWordRunsNext : Prop :=
  ∀ (s : State) (w : Word), s.mem.wf = true → s.pc ≠ params.kbsrAddr →
    step (s.withFetchWord 16 w.toNat) = exec (decode w) ((s.withFetchWord 16 w.toNat).setPc (s.pc + 1#16)) ∧
    SameCellsExcept [s.pc] s (s.withFetchWord 16 w.toNat) ∧ (s.withFetchWord 16 w.toNat).regs = s.regs ∧
    (s.withFetchWord 16 w.toNat).cond = s.cond ∧ (s.withFetchWord 16 w.toNat).pc = s.pc ∧ SameDevices s (s.withFetchWord 16 w.toNat)

/-- The host's protocol: cells are loaded and the run is started only between reset and start; a step, which goes on with a
held call too (log 8), is taken only by a started, RUNNING core; a run can be cut only until it has ended (log 22), and then has no
final state; the state is read out only when a started core is not RUNNING; reset can always come and gives the reset state
beside the pending characters and the record (15, R55 and R57; 40, R130; 70, R240 and R241; the form is the model's: log
15). -/
def Obligations.HostActsOnlyAsAllowed : Prop :=
  ∀ y : System, (∀ a v, (y.react (.load a v)).isSome = true ↔ y.phase = .loading) ∧
    ((y.react .start).isSome = true ↔ y.phase = .loading) ∧
    ((y.react .step).isSome = true ↔ y.phase = .started ∧ y.core.rs = .running) ∧
    (∀ n, (y.react (.cut n)).isSome = true ↔ y.phase = .loading ∨ (y.phase = .started ∧ y.core.rs = .running)) ∧
    (y.readout.isSome = true ↔ y.phase = .started ∧ y.core.rs ≠ .running) ∧
    (∀ n z, y.react (.cut n) = some z → z.phase = .abandoned ∧ z.readout = none) ∧
    (∀ n, ∃ z, y.react (.reset n) = some z ∧ z.phase = .loading ∧
      z.core = { State.reset with kbd := z.core.kbd, out := z.core.out } ∧ (n = 0 → z.core = y.core.assertReset))

/-- The final state of a run that has ended stays, and so do its record and the characters it took, whatever happens, until a
reset: no cut, no key and no step takes them away (40, R136; 15, R56; that an ended run cannot be cut is log 22). -/
def Obligations.EndedRunKeepsItsFinalState : Prop :=
  ∀ (y z : System) (e : HostEvent), y.phase = .started → y.core.rs ≠ .running → (∀ n, e ≠ .reset n) →
    y.react e = some z → y.observe.final.isSome = true ∧ z.observe = y.observe ∧ z.phase = y.phase ∧
      z.core.rs = y.core.rs

/-- A run can be cut at any moment, in the middle of a step too (15, R57; 90_conflicts.md C10): the record then is the one
before the step with some first part of the step's events, every such part can arise, the whole of it if the step was done, and
a character is taken or not; a reset at that moment keeps the same record and the same pending characters (70, R240). The
points at which a step can be stopped are the model's form: log 22. -/
def Obligations.CutInsideAStepLeavesAFirstPart : Prop :=
  ∀ (y : System) (t : State), y.core.mem.wf = true → y.phase = .started → y.core.rs = .running → step y.core = .next t →
    (∀ n, ∃ z w, y.react (.cut n) = some z ∧ y.react (.reset n) = some w ∧
      y.core.out <+: z.core.out ∧ z.core.out <+: t.out ∧ (z.core.kbd = y.core.kbd ∨ z.core.kbd = t.kbd) ∧
      w.core.out = z.core.out ∧ w.core.kbd = z.core.kbd) ∧
    (∀ o, y.core.out <+: o → o <+: t.out → ∃ n z, y.react (.cut n) = some z ∧ z.core.out = o) ∧
    (∃ n z, y.react (.cut n) = some z ∧ z.core.out = t.out ∧ z.core.kbd = t.kbd)
end

