-- ==== Sys2Proof/Laws/Decode.lean ====
section
/-! SUPPORT. The laws of the encoding: the opcode map read both ways, the formats of spec 30_encoding.md R101 written side by
side, and where an encoded instruction's opcode lies (30 R100, R104). -/

namespace Sys2Proof

/-- The opcode map read back from a value gives its name (30 R104). -/
@[simp] theorem opcodeOf_opcodeBits (o : Opcode) : opcodeOf (opcodeBits o) = o := by cases o <;> decide

/-- The opcode map read back from a name gives its value (30 R104). -/
theorem opcodeBits_opcodeOf (b : BitVec 4) : opcodeBits (opcodeOf b) = b := by revert b; decide

/-- Bits 11:0 of an instruction's word, its fields side by side as 30 R101 draws them. -/
def formatBits : Instr → BitVec 12
  | .br n z p off => BitVec.ofBool n ++ BitVec.ofBool z ++ BitVec.ofBool p ++ off
  | .addReg dr sr1 sr2 | .andReg dr sr1 sr2 => dr ++ sr1 ++ 0b000#3 ++ sr2
  | .addImm dr sr1 imm | .andImm dr sr1 imm => dr ++ sr1 ++ 1#1 ++ imm
  | .not dr sr1 => dr ++ sr1 ++ 0b111111#6
  | .ld r off | .ldi r off | .lea r off | .st r off | .sti r off => r ++ off
  | .ldr r base off | .str r base off => r ++ base ++ off
  | .jsr off => 1#1 ++ off
  | .jsrr base | .jmp base => 0b000#3 ++ base ++ 0b000000#6
  | .rti | .res => 0#12
  | .trap v => 0b0000#4 ++ v
  | .getc => 0b0000#4 ++ Machine.params.tvGetc
  | .out => 0b0000#4 ++ Machine.params.tvOut
  | .puts => 0b0000#4 ++ Machine.params.tvPuts
  | .inp => 0b0000#4 ++ Machine.params.tvIn
  | .putsp => 0b0000#4 ++ Machine.params.tvPutsp
  | .halt => 0b0000#4 ++ Machine.params.tvHalt

/-- A bit of a field at its place. -/
theorem getLsbD_place {n : Nat} (lo : Nat) (f : BitVec n) (k : Nat) :
    (place lo f).getLsbD k = (decide (k < 16) && decide (lo ≤ k) && f.getLsbD (k - lo)) := by
  simp only [place, BitVec.getLsbD_shiftLeft, BitVec.getLsbD_setWidth]
  by_cases hk : k < 16
  · by_cases hl : k < lo
    · simp [hl, Nat.not_le.2 hl]
    · simp [hk, hl, Nat.le_of_not_lt hl, Nat.lt_of_le_of_lt (Nat.sub_le k lo) hk]
  · simp [hk]

/-- With the field positions of this machine, an instruction's word is its opcode above its format's bits (30 R101). -/
theorem encode_eq_format (i : Instr) : encode i = opcodeBits i.opcode ++ formatBits i := by
  apply BitVec.eq_of_getLsbD_eq
  intro k hk
  cases i <;>
    simp only [encode, encodeLow, formatBits, BitVec.getLsbD_or, getLsbD_place, BitVec.getLsbD_append, Instr.opcode,
      Machine.params, Machine.fieldPositions] <;>
    interval_cases k <;> simp

/-- The opcode field of an encoded word is the instruction's opcode (30 R100). -/
@[simp] theorem fieldOpcode_encode (i : Instr) : fieldOpcode (encode i) = opcodeBits i.opcode := by
  rw [encode_eq_format]
  exact BitVec.extractLsb'_append_eq_left

/-- A vector without a service decodes as the generic TRAP (30 R109). -/
theorem decodeTrap_of_not_service {v : Byte} (h : isServiceVector v = false) : decodeTrap v = .trap v := by
  simp only [isServiceVector, Bool.or_eq_false_iff, beq_eq_false_iff_ne, ne_eq] at h
  obtain ⟨⟨⟨⟨⟨h1, h2⟩, h3⟩, h4⟩, h5⟩, h6⟩ := h
  rw [decodeTrap, if_neg h1, if_neg h2, if_neg h3, if_neg h4, if_neg h5, if_neg h6]

end Sys2Proof
end

