-- ==== Sys2Proof/Laws/Memory.lean ====
section
/-! SUPPORT. The laws of memory: reading after writing, and that every memory operation keeps the canonical form. -/

namespace Sys2Proof.Machine

/-- Canonical form from an address on is canonical form from any lower one. -/
theorem Memory.wfFrom_mono {lo lo' : Nat} {m : Memory} (h : lo' ≤ lo) (hm : m.wfFrom lo = true) :
    m.wfFrom lo' = true := by
  cases m with
  | nil => rfl
  | cons c m => obtain ⟨k, w⟩ := c; simp [Memory.wfFrom] at hm ⊢; exact ⟨⟨⟨by omega, hm.1.1.2⟩, hm.1.2⟩, hm.2⟩

/-- A canonical list lists no cell below its first address. -/
theorem Memory.read_below {lo a : Nat} {m : Memory} (hm : m.wfFrom lo = true) (h : a < lo) : m.read a = 0x0000#16 := by
  induction m generalizing lo with
  | nil => rfl
  | cons c m ih =>
    obtain ⟨k, w⟩ := c
    simp [Memory.wfFrom] at hm
    rw [Memory.read, if_neg (by omega)]
    exact ih hm.2 (by omega)

/-- Writing one cell leaves every other cell alone (spec 20_memory.md R74). -/
theorem Memory.read_write_ne {m : Memory} {a b : Nat} (v : Word) (h : b ≠ a) : (m.write a v).read b = m.read b := by
  induction m with
  | nil => simp only [Memory.write, Memory.put]; split <;> simp [Memory.read, h]
  | cons c m ih =>
    obtain ⟨k, w⟩ := c
    simp only [Memory.write, Memory.put]
    split
    · split <;> simp [Memory.read, h]
    · split
      · subst a; split <;> simp [Memory.read, h]
      · simp [Memory.read, ih]

/-- A canonical memory reads at a cell what was last written there (20 R74, R84). -/
theorem Memory.read_write_same_from {lo : Nat} {m : Memory} {a : Nat} (v : Word) (hm : m.wfFrom lo = true) :
    (m.write a v).read a = v := by
  induction m generalizing lo with
  | nil => simp only [Memory.write, Memory.put]; split <;> simp [Memory.read, *]
  | cons c m ih =>
    obtain ⟨k, w⟩ := c
    simp [Memory.wfFrom] at hm
    simp only [Memory.write, Memory.put]
    split
    · split
      · rw [Memory.read, if_neg (by omega), Memory.read_below hm.2 (by omega)]; simp [*]
      · simp [Memory.read]
    · split
      · split
        · rw [Memory.read_below hm.2 (by omega)]; simp [*]
        · simp [Memory.read]
      · rw [Memory.read, if_neg (by omega)]; exact ih hm.2

/-- A canonical memory reads at a cell what was last written there (20 R74, R84). -/
theorem Memory.read_write_same {m : Memory} {a : Nat} (v : Word) (hm : m.wf = true) : (m.write a v).read a = v :=
  Memory.read_write_same_from v hm

/-- The content of any cell after a write. -/
theorem Memory.read_write {m : Memory} (a b : Nat) (v : Word) (hm : m.wf = true) :
    (m.write a v).read b = if b = a then v else m.read b := by
  split
  · subst b; exact Memory.read_write_same v hm
  · exact Memory.read_write_ne v ‹_›

/-- Putting a cell in front of a canonical list of higher cells keeps the form. -/
theorem Memory.put_wfFrom {lo a : Nat} {m : Memory} (v : Word) (h : lo ≤ a) (ha : a < 65536)
    (hm : m.wfFrom (a + 1) = true) : (Memory.put a v m).wfFrom lo = true := by
  unfold Memory.put
  split
  · exact Memory.wfFrom_mono (by omega) hm
  · rename_i hv
    simp [Memory.wfFrom, h, ha, hm]
    exact hv

/-- A write keeps the canonical form from any address on that it does not lie below. -/
theorem Memory.write_wfFrom {lo a : Nat} {m : Memory} (v : Word) (h : lo ≤ a) (ha : a < 65536)
    (hm : m.wfFrom lo = true) : (m.write a v).wfFrom lo = true := by
  induction m generalizing lo with
  | nil => exact Memory.put_wfFrom v h ha rfl
  | cons c m ih =>
    obtain ⟨k, w⟩ := c
    simp [Memory.wfFrom] at hm
    simp only [Memory.write]
    split
    · exact Memory.put_wfFrom v h ha (by simp [Memory.wfFrom, hm]; omega)
    · split
      · exact Memory.put_wfFrom v h ha (Memory.wfFrom_mono (by omega) hm.2)
      · simp [Memory.wfFrom, hm]; exact ih (by omega) hm.2

/-- A write keeps the canonical form. -/
theorem Memory.write_wf {a : Nat} {m : Memory} (v : Word) (ha : a < 65536) (hm : m.wf = true) :
    (m.write a v).wf = true :=
  Memory.write_wfFrom v (Nat.zero_le a) ha hm

/-- Two canonical memories whose cells read the same are the same list. -/
theorem Memory.ext_from {lo : Nat} {m m' : Memory} (hm : m.wfFrom lo = true) (hm' : m'.wfFrom lo = true)
    (h : ∀ a, m.read a = m'.read a) : m = m' := by
  induction m generalizing lo m' with
  | nil =>
    cases m' with
    | nil => rfl
    | cons c m' =>
      obtain ⟨k, w⟩ := c
      simp [Memory.wfFrom] at hm'
      have := h k
      simp [Memory.read] at this
      exact absurd this.symm hm'.1.2
  | cons c m ih =>
    obtain ⟨k, w⟩ := c
    simp [Memory.wfFrom] at hm
    cases m' with
    | nil =>
      have := h k
      simp [Memory.read] at this
      exact absurd this hm.1.2
    | cons c' m' =>
      obtain ⟨k', w'⟩ := c'
      simp [Memory.wfFrom] at hm'
      have hk : k = k' := by
        rcases Nat.lt_trichotomy k k' with hlt | heq | hgt
        · have := h k
          rw [Memory.read, if_pos rfl, Memory.read, if_neg (by omega), Memory.read_below hm'.2 (by omega)] at this
          exact absurd this hm.1.2
        · exact heq
        · have := h k'
          rw [Memory.read, if_neg (by omega), Memory.read_below hm.2 (by omega), Memory.read, if_pos rfl] at this
          exact absurd this.symm hm'.1.2
      subst hk
      have hw : w = w' := by have := h k; simpa [Memory.read] using this
      subst hw
      have : m = m' := ih hm.2 hm'.2 fun a => by
        by_cases ha : a = k
        · subst ha
          rw [Memory.read_below hm.2 (by omega), Memory.read_below hm'.2 (by omega)]
        · have := h a
          simpa [Memory.read, ha] using this
      rw [this]

/-- Two canonical memories whose cells read the same are the same list. -/
theorem Memory.ext {m m' : Memory} (hm : m.wf = true) (hm' : m'.wf = true) (h : ∀ a, m.read a = m'.read a) : m = m' :=
  Memory.ext_from hm hm' h

/-- The cells after the next one are the cells after this one, one further. -/
theorem Memory.addr_succ (a : Word) (j : Nat) : a + 1#16 + BitVec.ofNat 16 j = a + BitVec.ofNat 16 (j + 1) := by
  rw [BitVec.ofNat_add, BitVec.add_assoc, BitVec.add_comm (BitVec.ofNat 16 j)]

/-- A string that ends after `k` cells, within the cells the scan may look at, is scanned whole and its end is met (spec
45_trap.md R183). -/
theorem Memory.scanString_found (m : Memory) {n k : Nat} (a : Word) (hk : k < n)
    (hne : ∀ j < k, m.read (a + BitVec.ofNat 16 j).toNat ≠ 0x0000#16)
    (hz : m.read (a + BitVec.ofNat 16 k).toNat = 0x0000#16) :
    m.scanString n a = ((List.range k).map fun j => m.read (a + BitVec.ofNat 16 j).toNat, true) := by
  induction k generalizing n a with
  | zero =>
    obtain ⟨n, rfl⟩ : ∃ n', n = n' + 1 := ⟨n - 1, by omega⟩
    have hz0 : m.read a.toNat = 0x0000#16 := by simpa using hz
    simp [Memory.scanString, hz0]
  | succ k ih =>
    obtain ⟨n, rfl⟩ : ∃ n', n = n' + 1 := ⟨n - 1, by omega⟩
    have shift := Memory.addr_succ a
    have h0 : m.read a.toNat ≠ 0x0000#16 := by simpa using hne 0 (by omega)
    have ih' := ih (n := n) (a + 1#16) (by omega) (fun j hj => by rw [shift]; exact hne (j + 1) (by omega))
      (by rw [shift]; exact hz)
    rw [Memory.scanString, if_neg h0, ih', List.range_succ_eq_map]
    simp only [List.map_cons, List.map_map]
    refine Prod.ext (List.cons_eq_cons.2 ⟨by simp, List.map_congr_left fun j _ => by
      simp only [Function.comp_apply, shift]⟩) rfl

/-- A scan that meets no zero cell sees all its `n` cells and no end (45 R183). -/
theorem Memory.scanString_not_found (m : Memory) (n : Nat) (a : Word)
    (hne : ∀ j < n, m.read (a + BitVec.ofNat 16 j).toNat ≠ 0x0000#16) :
    m.scanString n a = ((List.range n).map fun j => m.read (a + BitVec.ofNat 16 j).toNat, false) := by
  induction n generalizing a with
  | zero => rfl
  | succ n ih =>
    have shift := Memory.addr_succ a
    have h0 : m.read a.toNat ≠ 0x0000#16 := by simpa using hne 0 (by omega)
    have ih' := ih (a + 1#16) (fun j hj => by rw [shift]; exact hne (j + 1) (by omega))
    rw [Memory.scanString, if_neg h0, ih', List.range_succ_eq_map]
    simp only [List.map_cons, List.map_map]
    refine Prod.ext (List.cons_eq_cons.2 ⟨by simp, List.map_congr_left fun j _ => by
      simp only [Function.comp_apply, shift]⟩) rfl

end Sys2Proof.Machine
end

