-- ==== Sys2Proof/Laws/State.lean ====
section
/-! SUPPORT. One lemma per field per update of the state, each true by rfl, and how a register and a cell read after each
update, so that no later proof unfolds a record update. -/

namespace Sys2Proof.Machine

@[simp] theorem State.setPc_regs (s : State) (v : Word) : (s.setPc v).regs = s.regs := rfl
@[simp] theorem State.setPc_pc (s : State) (v : Word) : (s.setPc v).pc = v := rfl
@[simp] theorem State.setPc_cond (s : State) (v : Word) : (s.setPc v).cond = s.cond := rfl
@[simp] theorem State.setPc_rs (s : State) (v : Word) : (s.setPc v).rs = s.rs := rfl
@[simp] theorem State.setPc_mem (s : State) (v : Word) : (s.setPc v).mem = s.mem := rfl
@[simp] theorem State.setPc_kbd (s : State) (v : Word) : (s.setPc v).kbd = s.kbd := rfl
@[simp] theorem State.setPc_out (s : State) (v : Word) : (s.setPc v).out = s.out := rfl
@[simp] theorem State.setPc_activity (s : State) (v : Word) : (s.setPc v).activity = s.activity := rfl
@[simp] theorem State.setPc_reg (s : State) (v : Word) (k : Reg) : (s.setPc v).reg k = s.reg k := rfl
@[simp] theorem State.setPc_cell (s : State) (v : Word) (k : Word) : (s.setPc v).cell k = s.cell k := rfl

@[simp] theorem State.setCond_regs (s : State) (v : Word) : (s.setCond v).regs = s.regs := rfl
@[simp] theorem State.setCond_pc (s : State) (v : Word) : (s.setCond v).pc = s.pc := rfl
@[simp] theorem State.setCond_cond (s : State) (v : Word) : (s.setCond v).cond = v := rfl
@[simp] theorem State.setCond_rs (s : State) (v : Word) : (s.setCond v).rs = s.rs := rfl
@[simp] theorem State.setCond_mem (s : State) (v : Word) : (s.setCond v).mem = s.mem := rfl
@[simp] theorem State.setCond_kbd (s : State) (v : Word) : (s.setCond v).kbd = s.kbd := rfl
@[simp] theorem State.setCond_out (s : State) (v : Word) : (s.setCond v).out = s.out := rfl
@[simp] theorem State.setCond_activity (s : State) (v : Word) : (s.setCond v).activity = s.activity := rfl
@[simp] theorem State.setCond_reg (s : State) (v : Word) (k : Reg) : (s.setCond v).reg k = s.reg k := rfl
@[simp] theorem State.setCond_cell (s : State) (v : Word) (k : Word) : (s.setCond v).cell k = s.cell k := rfl

@[simp] theorem State.setRs_regs (s : State) (r : RunState) : (s.setRs r).regs = s.regs := rfl
@[simp] theorem State.setRs_pc (s : State) (r : RunState) : (s.setRs r).pc = s.pc := rfl
@[simp] theorem State.setRs_cond (s : State) (r : RunState) : (s.setRs r).cond = s.cond := rfl
@[simp] theorem State.setRs_rs (s : State) (r : RunState) : (s.setRs r).rs = r := rfl
@[simp] theorem State.setRs_mem (s : State) (r : RunState) : (s.setRs r).mem = s.mem := rfl
@[simp] theorem State.setRs_kbd (s : State) (r : RunState) : (s.setRs r).kbd = s.kbd := rfl
@[simp] theorem State.setRs_out (s : State) (r : RunState) : (s.setRs r).out = s.out := rfl
@[simp] theorem State.setRs_activity (s : State) (r : RunState) : (s.setRs r).activity = s.activity := rfl
@[simp] theorem State.setRs_reg (s : State) (r : RunState) (k : Reg) : (s.setRs r).reg k = s.reg k := rfl
@[simp] theorem State.setRs_cell (s : State) (r : RunState) (k : Word) : (s.setRs r).cell k = s.cell k := rfl

@[simp] theorem State.setMem_regs (s : State) (m : Memory) : (s.setMem m).regs = s.regs := rfl
@[simp] theorem State.setMem_pc (s : State) (m : Memory) : (s.setMem m).pc = s.pc := rfl
@[simp] theorem State.setMem_cond (s : State) (m : Memory) : (s.setMem m).cond = s.cond := rfl
@[simp] theorem State.setMem_rs (s : State) (m : Memory) : (s.setMem m).rs = s.rs := rfl
@[simp] theorem State.setMem_mem (s : State) (m : Memory) : (s.setMem m).mem = m := rfl
@[simp] theorem State.setMem_kbd (s : State) (m : Memory) : (s.setMem m).kbd = s.kbd := rfl
@[simp] theorem State.setMem_out (s : State) (m : Memory) : (s.setMem m).out = s.out := rfl
@[simp] theorem State.setMem_activity (s : State) (m : Memory) : (s.setMem m).activity = s.activity := rfl
@[simp] theorem State.setMem_reg (s : State) (m : Memory) (k : Reg) : (s.setMem m).reg k = s.reg k := rfl

@[simp] theorem State.setKbd_regs (s : State) (q : List Byte) : (s.setKbd q).regs = s.regs := rfl
@[simp] theorem State.setKbd_pc (s : State) (q : List Byte) : (s.setKbd q).pc = s.pc := rfl
@[simp] theorem State.setKbd_cond (s : State) (q : List Byte) : (s.setKbd q).cond = s.cond := rfl
@[simp] theorem State.setKbd_rs (s : State) (q : List Byte) : (s.setKbd q).rs = s.rs := rfl
@[simp] theorem State.setKbd_mem (s : State) (q : List Byte) : (s.setKbd q).mem = s.mem := rfl
@[simp] theorem State.setKbd_kbd (s : State) (q : List Byte) : (s.setKbd q).kbd = q := rfl
@[simp] theorem State.setKbd_out (s : State) (q : List Byte) : (s.setKbd q).out = s.out := rfl
@[simp] theorem State.setKbd_activity (s : State) (q : List Byte) : (s.setKbd q).activity = s.activity := rfl
@[simp] theorem State.setKbd_reg (s : State) (q : List Byte) (k : Reg) : (s.setKbd q).reg k = s.reg k := rfl
@[simp] theorem State.setKbd_cell (s : State) (q : List Byte) (k : Word) : (s.setKbd q).cell k = s.cell k := rfl

@[simp] theorem State.emit_regs (s : State) (es : List ConEvent) : (s.emit es).regs = s.regs := rfl
@[simp] theorem State.emit_pc (s : State) (es : List ConEvent) : (s.emit es).pc = s.pc := rfl
@[simp] theorem State.emit_cond (s : State) (es : List ConEvent) : (s.emit es).cond = s.cond := rfl
@[simp] theorem State.emit_rs (s : State) (es : List ConEvent) : (s.emit es).rs = s.rs := rfl
@[simp] theorem State.emit_mem (s : State) (es : List ConEvent) : (s.emit es).mem = s.mem := rfl
@[simp] theorem State.emit_kbd (s : State) (es : List ConEvent) : (s.emit es).kbd = s.kbd := rfl
@[simp] theorem State.emit_out (s : State) (es : List ConEvent) : (s.emit es).out = s.out ++ es := rfl
@[simp] theorem State.emit_activity (s : State) (es : List ConEvent) : (s.emit es).activity = s.activity := rfl
@[simp] theorem State.emit_reg (s : State) (es : List ConEvent) (k : Reg) : (s.emit es).reg k = s.reg k := rfl
@[simp] theorem State.emit_cell (s : State) (es : List ConEvent) (k : Word) : (s.emit es).cell k = s.cell k := rfl

@[simp] theorem State.setActivity_regs (s : State) (a : Activity) : (s.setActivity a).regs = s.regs := rfl
@[simp] theorem State.setActivity_pc (s : State) (a : Activity) : (s.setActivity a).pc = s.pc := rfl
@[simp] theorem State.setActivity_cond (s : State) (a : Activity) : (s.setActivity a).cond = s.cond := rfl
@[simp] theorem State.setActivity_rs (s : State) (a : Activity) : (s.setActivity a).rs = s.rs := rfl
@[simp] theorem State.setActivity_mem (s : State) (a : Activity) : (s.setActivity a).mem = s.mem := rfl
@[simp] theorem State.setActivity_kbd (s : State) (a : Activity) : (s.setActivity a).kbd = s.kbd := rfl
@[simp] theorem State.setActivity_out (s : State) (a : Activity) : (s.setActivity a).out = s.out := rfl
@[simp] theorem State.setActivity_activity (s : State) (a : Activity) : (s.setActivity a).activity = a := rfl
@[simp] theorem State.setActivity_reg (s : State) (a : Activity) (k : Reg) : (s.setActivity a).reg k = s.reg k := rfl
@[simp] theorem State.setActivity_cell (s : State) (a : Activity) (k : Word) : (s.setActivity a).cell k = s.cell k := rfl

@[simp] theorem State.setReg_regs (s : State) (r : Reg) (v : Word) : (s.setReg r v).regs = s.regs.set r.toNat v r.isLt := rfl
@[simp] theorem State.setReg_pc (s : State) (r : Reg) (v : Word) : (s.setReg r v).pc = s.pc := rfl
@[simp] theorem State.setReg_cond (s : State) (r : Reg) (v : Word) : (s.setReg r v).cond = s.cond := rfl
@[simp] theorem State.setReg_rs (s : State) (r : Reg) (v : Word) : (s.setReg r v).rs = s.rs := rfl
@[simp] theorem State.setReg_mem (s : State) (r : Reg) (v : Word) : (s.setReg r v).mem = s.mem := rfl
@[simp] theorem State.setReg_kbd (s : State) (r : Reg) (v : Word) : (s.setReg r v).kbd = s.kbd := rfl
@[simp] theorem State.setReg_out (s : State) (r : Reg) (v : Word) : (s.setReg r v).out = s.out := rfl
@[simp] theorem State.setReg_activity (s : State) (r : Reg) (v : Word) : (s.setReg r v).activity = s.activity := rfl
@[simp] theorem State.setReg_cell (s : State) (r : Reg) (v : Word) (k : Word) : (s.setReg r v).cell k = s.cell k := rfl

@[simp] theorem State.setcc_regs (s : State) (v : Word) : (s.setcc v).regs = s.regs := rfl
@[simp] theorem State.setcc_pc (s : State) (v : Word) : (s.setcc v).pc = s.pc := rfl
@[simp] theorem State.setcc_cond (s : State) (v : Word) : (s.setcc v).cond = condOf v := rfl
@[simp] theorem State.setcc_rs (s : State) (v : Word) : (s.setcc v).rs = s.rs := rfl
@[simp] theorem State.setcc_mem (s : State) (v : Word) : (s.setcc v).mem = s.mem := rfl
@[simp] theorem State.setcc_kbd (s : State) (v : Word) : (s.setcc v).kbd = s.kbd := rfl
@[simp] theorem State.setcc_out (s : State) (v : Word) : (s.setcc v).out = s.out := rfl
@[simp] theorem State.setcc_activity (s : State) (v : Word) : (s.setcc v).activity = s.activity := rfl
@[simp] theorem State.setcc_reg (s : State) (v : Word) (k : Reg) : (s.setcc v).reg k = s.reg k := rfl
@[simp] theorem State.setcc_cell (s : State) (v : Word) (k : Word) : (s.setcc v).cell k = s.cell k := rfl

@[simp] theorem State.setCell_regs (s : State) (a v : Word) : (s.setCell a v).regs = s.regs := rfl
@[simp] theorem State.setCell_pc (s : State) (a v : Word) : (s.setCell a v).pc = s.pc := rfl
@[simp] theorem State.setCell_cond (s : State) (a v : Word) : (s.setCell a v).cond = s.cond := rfl
@[simp] theorem State.setCell_rs (s : State) (a v : Word) : (s.setCell a v).rs = s.rs := rfl
@[simp] theorem State.setCell_mem (s : State) (a v : Word) : (s.setCell a v).mem = s.mem.write a.toNat v := rfl
@[simp] theorem State.setCell_kbd (s : State) (a v : Word) : (s.setCell a v).kbd = s.kbd := rfl
@[simp] theorem State.setCell_out (s : State) (a v : Word) : (s.setCell a v).out = s.out := rfl
@[simp] theorem State.setCell_activity (s : State) (a v : Word) : (s.setCell a v).activity = s.activity := rfl
@[simp] theorem State.setCell_reg (s : State) (a v : Word) (k : Reg) : (s.setCell a v).reg k = s.reg k := rfl

@[simp] theorem State.memWrite_regs (s : State) (a v : Word) : (s.memWrite a v).regs = s.regs := rfl
@[simp] theorem State.memWrite_pc (s : State) (a v : Word) : (s.memWrite a v).pc = s.pc := rfl
@[simp] theorem State.memWrite_cond (s : State) (a v : Word) : (s.memWrite a v).cond = s.cond := rfl
@[simp] theorem State.memWrite_rs (s : State) (a v : Word) : (s.memWrite a v).rs = s.rs := rfl
@[simp] theorem State.memWrite_mem (s : State) (a v : Word) : (s.memWrite a v).mem = s.mem.write a.toNat v := rfl
@[simp] theorem State.memWrite_kbd (s : State) (a v : Word) : (s.memWrite a v).kbd = s.kbd := rfl
@[simp] theorem State.memWrite_out (s : State) (a v : Word) : (s.memWrite a v).out = s.out := rfl
@[simp] theorem State.memWrite_activity (s : State) (a v : Word) : (s.memWrite a v).activity = s.activity := rfl
@[simp] theorem State.memWrite_reg (s : State) (a v : Word) (k : Reg) : (s.memWrite a v).reg k = s.reg k := rfl

@[simp] theorem State.putBytes_regs (s : State) (bs : List Byte) : (s.putBytes bs).regs = s.regs := rfl
@[simp] theorem State.putBytes_pc (s : State) (bs : List Byte) : (s.putBytes bs).pc = s.pc := rfl
@[simp] theorem State.putBytes_cond (s : State) (bs : List Byte) : (s.putBytes bs).cond = s.cond := rfl
@[simp] theorem State.putBytes_rs (s : State) (bs : List Byte) : (s.putBytes bs).rs = s.rs := rfl
@[simp] theorem State.putBytes_mem (s : State) (bs : List Byte) : (s.putBytes bs).mem = s.mem := rfl
@[simp] theorem State.putBytes_kbd (s : State) (bs : List Byte) : (s.putBytes bs).kbd = s.kbd := rfl
@[simp] theorem State.putBytes_out (s : State) (bs : List Byte) : (s.putBytes bs).out = s.out ++ putEvents bs := rfl
@[simp] theorem State.putBytes_activity (s : State) (bs : List Byte) : (s.putBytes bs).activity = s.activity := rfl
@[simp] theorem State.putBytes_reg (s : State) (bs : List Byte) (k : Reg) : (s.putBytes bs).reg k = s.reg k := rfl
@[simp] theorem State.putBytes_cell (s : State) (bs : List Byte) (k : Word) : (s.putBytes bs).cell k = s.cell k := rfl

@[simp] theorem State.flush_regs (s : State) : (s.flush).regs = s.regs := rfl
@[simp] theorem State.flush_pc (s : State) : (s.flush).pc = s.pc := rfl
@[simp] theorem State.flush_cond (s : State) : (s.flush).cond = s.cond := rfl
@[simp] theorem State.flush_rs (s : State) : (s.flush).rs = s.rs := rfl
@[simp] theorem State.flush_mem (s : State) : (s.flush).mem = s.mem := rfl
@[simp] theorem State.flush_kbd (s : State) : (s.flush).kbd = s.kbd := rfl
@[simp] theorem State.flush_out (s : State) : (s.flush).out = s.out ++ [.flush] := rfl
@[simp] theorem State.flush_activity (s : State) : (s.flush).activity = s.activity := rfl
@[simp] theorem State.flush_reg (s : State) (k : Reg) : (s.flush).reg k = s.reg k := rfl
@[simp] theorem State.flush_cell (s : State) (k : Word) : (s.flush).cell k = s.cell k := rfl

@[simp] theorem State.raiseDecodeFault_regs (s : State) : (s.raiseDecodeFault).regs = s.regs := rfl
@[simp] theorem State.raiseDecodeFault_pc (s : State) : (s.raiseDecodeFault).pc = s.pc := rfl
@[simp] theorem State.raiseDecodeFault_cond (s : State) : (s.raiseDecodeFault).cond = s.cond := rfl
@[simp] theorem State.raiseDecodeFault_rs (s : State) : (s.raiseDecodeFault).rs = .faulted := rfl
@[simp] theorem State.raiseDecodeFault_mem (s : State) : (s.raiseDecodeFault).mem = s.mem := rfl
@[simp] theorem State.raiseDecodeFault_kbd (s : State) : (s.raiseDecodeFault).kbd = s.kbd := rfl
@[simp] theorem State.raiseDecodeFault_out (s : State) : (s.raiseDecodeFault).out = s.out := rfl
@[simp] theorem State.raiseDecodeFault_activity (s : State) : (s.raiseDecodeFault).activity = s.activity := rfl
@[simp] theorem State.raiseDecodeFault_reg (s : State) (k : Reg) : (s.raiseDecodeFault).reg k = s.reg k := rfl
@[simp] theorem State.raiseDecodeFault_cell (s : State) (k : Word) : (s.raiseDecodeFault).cell k = s.cell k := rfl

/-- A register reads what was last written to it (spec 10_state.md R21). -/
theorem State.reg_setReg_same (s : State) (r : Reg) (v : Word) : (s.setReg r v).reg r = v := by
  simp [State.reg]

/-- A write of one register leaves every other as it was (10 R21). -/
theorem State.reg_setReg_ne (s : State) {r k : Reg} (v : Word) (h : k ≠ r) : (s.setReg r v).reg k = s.reg k := by
  have hne : r.toNat ≠ k.toNat := fun e => h (BitVec.eq_of_toNat_eq e.symm)
  simp only [State.reg, State.setReg_regs]
  exact Vector.getElem_set_ne r.isLt k.isLt hne

/-- A register after a write of one register. -/
@[simp] theorem State.reg_setReg (s : State) (r k : Reg) (v : Word) :
    (s.setReg r v).reg k = if k = r then v else s.reg k := by
  split
  · subst k; exact s.reg_setReg_same r v
  · exact s.reg_setReg_ne v ‹_›

/-- The register file is what its eight registers read as. -/
theorem State.regs_ext {s t : State} (h : ∀ r, t.reg r = s.reg r) : t.regs = s.regs := by
  apply Vector.ext
  intro i hi
  have := h (BitVec.ofNat 3 i)
  simp only [State.reg, BitVec.toNat_ofNat] at this
  have e : i % 2 ^ 3 = i := Nat.mod_eq_of_lt hi
  simpa only [e] using this

@[simp] theorem State.writeResult_regs (s : State) (r : Reg) (v : Word) : (s.writeResult r v).regs = s.regs.set r.toNat v r.isLt := rfl
@[simp] theorem State.writeResult_pc (s : State) (r : Reg) (v : Word) : (s.writeResult r v).pc = s.pc := rfl
@[simp] theorem State.writeResult_cond (s : State) (r : Reg) (v : Word) : (s.writeResult r v).cond = condOf v := by
  simp [State.writeResult]
@[simp] theorem State.writeResult_rs (s : State) (r : Reg) (v : Word) : (s.writeResult r v).rs = s.rs := rfl
@[simp] theorem State.writeResult_mem (s : State) (r : Reg) (v : Word) : (s.writeResult r v).mem = s.mem := rfl
@[simp] theorem State.writeResult_kbd (s : State) (r : Reg) (v : Word) : (s.writeResult r v).kbd = s.kbd := rfl
@[simp] theorem State.writeResult_out (s : State) (r : Reg) (v : Word) : (s.writeResult r v).out = s.out := rfl
@[simp] theorem State.writeResult_activity (s : State) (r : Reg) (v : Word) : (s.writeResult r v).activity = s.activity := rfl
@[simp] theorem State.writeResult_cell (s : State) (r : Reg) (v k : Word) : (s.writeResult r v).cell k = s.cell k := rfl
/-- A register after the end of a flag-setting instruction. -/
@[simp] theorem State.writeResult_reg (s : State) (r k : Reg) (v : Word) :
    (s.writeResult r v).reg k = if k = r then v else s.reg k :=
  s.reg_setReg r k v

@[simp] theorem State.enterTrap_regs (s : State) : s.enterTrap.regs = s.regs.set 7 s.pc (by decide) := rfl
@[simp] theorem State.enterTrap_pc (s : State) : s.enterTrap.pc = s.pc := rfl
@[simp] theorem State.enterTrap_cond (s : State) : s.enterTrap.cond = s.cond := rfl
@[simp] theorem State.enterTrap_rs (s : State) : s.enterTrap.rs = s.rs := rfl
@[simp] theorem State.enterTrap_mem (s : State) : s.enterTrap.mem = s.mem := rfl
@[simp] theorem State.enterTrap_kbd (s : State) : s.enterTrap.kbd = s.kbd := rfl
@[simp] theorem State.enterTrap_out (s : State) : s.enterTrap.out = s.out := rfl
@[simp] theorem State.enterTrap_activity (s : State) : s.enterTrap.activity = s.activity := rfl
@[simp] theorem State.enterTrap_cell (s : State) (k : Word) : s.enterTrap.cell k = s.cell k := rfl
/-- A register after the entry of a TRAP: R7 holds the return address (45_trap.md R180). -/
@[simp] theorem State.enterTrap_reg (s : State) (k : Reg) : s.enterTrap.reg k = if k = 7#3 then s.pc else s.reg k :=
  s.reg_setReg 7 k s.pc

end Sys2Proof.Machine
end

