-- ==== Sys2Proof/Laws/Ops.lean ====
section
/-! SUPPORT. What the shared operations can do: cells after a write, the flag computation, the poll of the keyboard and the
mapped-I/O read, the entry of a TRAP and the DecodeFault. Provers cite these and do not unfold the operations. -/

namespace Sys2Proof.Machine

/-! ### The parameters -/

/-- The two keyboard cells differ (spec 92_eei_decisions.md D8). -/
theorem kbdr_ne_kbsr : params.kbdrAddr ≠ params.kbsrAddr := by decide

/-- The three flags are three distinct values (spec 10_state.md R27). -/
theorem flags_distinct : params.flPos ≠ params.flZro ∧ params.flPos ≠ params.flNeg ∧ params.flZro ≠ params.flNeg := by
  decide

/-! ### Cells -/

/-- A cell after a write of it, in a canonical memory (20_memory.md R74). -/
theorem State.cell_setCell_same {s : State} (a v : Word) (hm : s.mem.wf = true) : (s.setCell a v).cell a = v :=
  Memory.read_write_same v hm

/-- Every other cell after a write (20 R74). -/
theorem State.cell_setCell_ne {s : State} {a b : Word} (v : Word) (h : b ≠ a) : (s.setCell a v).cell b = s.cell b :=
  Memory.read_write_ne v fun e => h (BitVec.eq_of_toNat_eq e)

/-- Any cell after a write, in a canonical memory. -/
theorem State.cell_setCell {s : State} (a b v : Word) (hm : s.mem.wf = true) :
    (s.setCell a v).cell b = if b = a then v else s.cell b := by
  split
  · subst b; exact State.cell_setCell_same a v hm
  · exact State.cell_setCell_ne v ‹_›

/-- A write of a cell keeps the canonical form. -/
theorem State.setCell_wf {s : State} (a v : Word) (hm : s.mem.wf = true) : (s.setCell a v).mem.wf = true :=
  Memory.write_wf v a.isLt hm

/-! ### Flags -/

/-- `setcc` gives COND one of its three values (10 R27, R28). -/
theorem condOf_cases (v : Word) :
    (v = 0x0000#16 ∧ condOf v = params.flZro) ∨ (v ≠ 0x0000#16 ∧ v.getLsbD 15 = true ∧ condOf v = params.flNeg) ∨
      (v ≠ 0x0000#16 ∧ v.getLsbD 15 = false ∧ condOf v = params.flPos) := by
  unfold condOf
  split
  · exact .inl ⟨‹_›, rfl⟩
  · split
    · exact .inr (.inl ⟨‹_›, ‹_›, rfl⟩)
    · exact .inr (.inr ⟨‹_›, Bool.eq_false_iff.2 ‹_›, rfl⟩)

/-- COND is legal once a flag-setting instruction has written it. -/
theorem condLegal_of_condOf {s : State} {v : Word} (h : s.cond = condOf v) : s.condLegal = true := by
  unfold State.condLegal
  rw [h]
  rcases condOf_cases v with ⟨-, h⟩ | ⟨-, -, h⟩ | ⟨-, -, h⟩ <;> rw [h] <;> decide

/-! ### The poll and the mapped-I/O read -/

/-- What a poll does, whole (20 R72): either no character is pending, the status cell becomes 0 and nothing else changes;
or the first one is taken, the status cell becomes `KBSR_READY` and the data cell that character. -/
theorem State.pollKeyboard_cases (s : State) :
    (s.kbd = [] ∧ s.pollKeyboard = s.setCell params.kbsrAddr 0x0000#16) ∨
      (∃ c q, s.kbd = c :: q ∧ s.pollKeyboard =
        ((s.setCell params.kbsrAddr params.kbsrReady).setCell params.kbdrAddr (zextChar c)).setKbd q) := by
  unfold State.pollKeyboard
  split
  · exact .inl ⟨‹_›, rfl⟩
  · exact .inr ⟨_, _, ‹_›, rfl⟩

/-- What the read policy does, whole: at any address but the status cell's, nothing (20 R71, R81). -/
theorem State.readEffect_cases (s : State) (a : Word) :
    (a ≠ params.kbsrAddr ∧ s.readEffect a = s) ∨ (a = params.kbsrAddr ∧ s.readEffect a = s.pollKeyboard) := by
  unfold State.readEffect
  split
  · exact .inr ⟨‹_›, rfl⟩
  · exact .inl ⟨‹_›, rfl⟩

/-- A read of any address but the status cell's is plain (20 R81). -/
theorem State.readEffect_of_ne {s : State} {a : Word} (h : a ≠ params.kbsrAddr) : s.readEffect a = s := if_neg h

/-- A read of the status cell polls (20 R71). -/
theorem State.readEffect_kbsr (s : State) : s.readEffect params.kbsrAddr = s.pollKeyboard := if_pos rfl

@[simp] theorem State.pollKeyboard_regs (s : State) : s.pollKeyboard.regs = s.regs := by
  rcases s.pollKeyboard_cases with ⟨-, h⟩ | ⟨_, _, -, h⟩ <;> rw [h] <;> rfl
@[simp] theorem State.readEffect_regs (s : State) (a : Word) : (s.readEffect a).regs = s.regs := by
  rcases s.readEffect_cases a with ⟨-, h⟩ | ⟨-, h⟩ <;> simp [h]

@[simp] theorem State.pollKeyboard_pc (s : State) : s.pollKeyboard.pc = s.pc := by
  rcases s.pollKeyboard_cases with ⟨-, h⟩ | ⟨_, _, -, h⟩ <;> rw [h] <;> rfl
@[simp] theorem State.readEffect_pc (s : State) (a : Word) : (s.readEffect a).pc = s.pc := by
  rcases s.readEffect_cases a with ⟨-, h⟩ | ⟨-, h⟩ <;> simp [h]

@[simp] theorem State.pollKeyboard_cond (s : State) : s.pollKeyboard.cond = s.cond := by
  rcases s.pollKeyboard_cases with ⟨-, h⟩ | ⟨_, _, -, h⟩ <;> rw [h] <;> rfl
@[simp] theorem State.readEffect_cond (s : State) (a : Word) : (s.readEffect a).cond = s.cond := by
  rcases s.readEffect_cases a with ⟨-, h⟩ | ⟨-, h⟩ <;> simp [h]

@[simp] theorem State.pollKeyboard_rs (s : State) : s.pollKeyboard.rs = s.rs := by
  rcases s.pollKeyboard_cases with ⟨-, h⟩ | ⟨_, _, -, h⟩ <;> rw [h] <;> rfl
@[simp] theorem State.readEffect_rs (s : State) (a : Word) : (s.readEffect a).rs = s.rs := by
  rcases s.readEffect_cases a with ⟨-, h⟩ | ⟨-, h⟩ <;> simp [h]

@[simp] theorem State.pollKeyboard_out (s : State) : s.pollKeyboard.out = s.out := by
  rcases s.pollKeyboard_cases with ⟨-, h⟩ | ⟨_, _, -, h⟩ <;> rw [h] <;> rfl
@[simp] theorem State.readEffect_out (s : State) (a : Word) : (s.readEffect a).out = s.out := by
  rcases s.readEffect_cases a with ⟨-, h⟩ | ⟨-, h⟩ <;> simp [h]

@[simp] theorem State.pollKeyboard_activity (s : State) : s.pollKeyboard.activity = s.activity := by
  rcases s.pollKeyboard_cases with ⟨-, h⟩ | ⟨_, _, -, h⟩ <;> rw [h] <;> rfl
@[simp] theorem State.readEffect_activity (s : State) (a : Word) : (s.readEffect a).activity = s.activity := by
  rcases s.readEffect_cases a with ⟨-, h⟩ | ⟨-, h⟩ <;> simp [h]

@[simp] theorem State.pollKeyboard_reg (s : State) (k : Reg) : s.pollKeyboard.reg k = s.reg k := by
  simp [State.reg]
@[simp] theorem State.readEffect_reg (s : State) (a : Word) (k : Reg) : (s.readEffect a).reg k = s.reg k := by
  simp [State.reg]


/-- A poll takes the first pending character if there is one, and no other (spec 15_interfaces.md R52). -/
@[simp] theorem State.pollKeyboard_kbd (s : State) : s.pollKeyboard.kbd = s.kbd.tail := by
  rcases s.pollKeyboard_cases with ⟨h0, h⟩ | ⟨_, _, h0, h⟩ <;> rw [h] <;> simp [h0]

/-- A poll rewrites no cell but the two keyboard cells (20 R72). -/
theorem State.pollKeyboard_cell_ne {s : State} {a : Word} (h1 : a ≠ params.kbsrAddr) (h2 : a ≠ params.kbdrAddr) :
    s.pollKeyboard.cell a = s.cell a := by
  rcases s.pollKeyboard_cases with ⟨-, h⟩ | ⟨_, _, -, h⟩ <;> rw [h]
  · exact State.cell_setCell_ne _ h1
  · rw [State.setKbd_cell, State.cell_setCell_ne _ h2, State.cell_setCell_ne _ h1]

/-- The status cell after a poll (20 R72). -/
theorem State.pollKeyboard_kbsr {s : State} (hm : s.mem.wf = true) :
    s.pollKeyboard.cell params.kbsrAddr = if s.kbd = [] then 0x0000#16 else params.kbsrReady := by
  rcases s.pollKeyboard_cases with ⟨h0, h⟩ | ⟨c, q, h0, h⟩ <;> rw [h]
  · rw [State.cell_setCell_same _ _ hm, if_pos h0]
  · rw [State.setKbd_cell, State.cell_setCell_ne _ kbdr_ne_kbsr.symm, State.cell_setCell_same _ _ hm, h0,
      if_neg (List.cons_ne_nil c q)]

/-- The data cell after a poll that found nothing keeps its content (20 R72). -/
theorem State.pollKeyboard_kbdr_nil {s : State} (h0 : s.kbd = []) :
    s.pollKeyboard.cell params.kbdrAddr = s.cell params.kbdrAddr := by
  simp only [State.pollKeyboard, h0]
  exact State.cell_setCell_ne _ kbdr_ne_kbsr

/-- The data cell after a poll that took a character holds it (20 R72). -/
theorem State.pollKeyboard_kbdr_cons {s : State} {c : Byte} {q : List Byte} (h0 : s.kbd = c :: q)
    (hm : s.mem.wf = true) : s.pollKeyboard.cell params.kbdrAddr = zextChar c := by
  simp only [State.pollKeyboard, h0, State.setKbd_cell]
  exact State.cell_setCell_same _ _ (State.setCell_wf _ _ hm)

/-- A poll keeps the canonical form. -/
theorem State.pollKeyboard_wf {s : State} (hm : s.mem.wf = true) : s.pollKeyboard.mem.wf = true := by
  rcases s.pollKeyboard_cases with ⟨-, h⟩ | ⟨_, _, -, h⟩ <;> rw [h]
  · exact State.setCell_wf _ _ hm
  · exact State.setCell_wf _ _ (State.setCell_wf _ _ hm)

/-- A read keeps the canonical form. -/
theorem State.readEffect_wf {s : State} (a : Word) (hm : s.mem.wf = true) : (s.readEffect a).mem.wf = true := by
  rcases s.readEffect_cases a with ⟨-, h⟩ | ⟨-, h⟩ <;> rw [h]
  · exact hm
  · exact State.pollKeyboard_wf hm

/-- A read rewrites no cell but the two keyboard cells (20 R71, R81). -/
theorem State.readEffect_cell_ne {s : State} {a b : Word} (h1 : b ≠ params.kbsrAddr) (h2 : b ≠ params.kbdrAddr) :
    (s.readEffect a).cell b = s.cell b := by
  rcases s.readEffect_cases a with ⟨-, h⟩ | ⟨-, h⟩ <;> rw [h]
  exact State.pollKeyboard_cell_ne h1 h2

/-- `MemRead` answers the cell as the read's effect left it, and that state (20 R71). -/
theorem State.memRead_eq (s : State) (a : Word) : s.memRead a = ((s.readEffect a).cell a, s.readEffect a) := rfl

/-- `MemRead` at any address but the status cell's answers the stored content and changes nothing (20 R81). -/
theorem State.memRead_of_ne {s : State} {a : Word} (h : a ≠ params.kbsrAddr) : s.memRead a = (s.cell a, s) := by
  rw [State.memRead_eq, State.readEffect_of_ne h]

end Sys2Proof.Machine
end

