-- ==== Sys2Proof/Laws/Services.lean ====
section
/-! SUPPORT. What the service calls can do, said once for each (spec 45_trap.md R181 to R187). -/

namespace Sys2Proof.Machine

/-- What `KbdWait` as GETC uses it does: it holds and changes nothing else, or it takes the first character (45 R181). -/
theorem State.awaitGetc_cases (s : State) :
    (s.kbd = [] ∧ s.awaitGetc = s.setActivity .getc) ∨
      (∃ c q, s.kbd = c :: q ∧
        s.awaitGetc = (((s.setKbd q).setActivity .idle).setReg 0#3 (zextChar c)).setcc (zextChar c)) := by
  unfold State.awaitGetc
  split
  · exact .inl ⟨‹_›, rfl⟩
  · exact .inr ⟨_, _, ‹_›, rfl⟩

/-- What `KbdWait` as IN uses it does: it holds and changes nothing else, or it takes the first character, echoes it and
flushes (45 R184). -/
theorem State.awaitInput_cases (s : State) :
    (s.kbd = [] ∧ s.awaitInput = s.setActivity .input) ∨
      (∃ c q, s.kbd = c :: q ∧ s.awaitInput =
        (((((s.setKbd q).setActivity .idle).putBytes [c]).flush).setReg 0#3 (zextChar c)).setcc (zextChar c)) := by
  unfold State.awaitInput
  split
  · exact .inl ⟨‹_›, rfl⟩
  · exact .inr ⟨_, _, ‹_›, rfl⟩

/-- What PUTS does: it sends the scanned cells' low bytes, and then either it met the terminator, flushes and is done, or
it is still in progress (45 R183). -/
theorem State.servicePuts_cases (s : State) :
    ∃ ws, (s.mem.scanString memCells (s.reg 0#3) = (ws, true) ∧
        s.servicePuts = ((s.putBytes (ws.flatMap putsBytes)).flush).setActivity .idle) ∨
      (s.mem.scanString memCells (s.reg 0#3) = (ws, false) ∧
        s.servicePuts = (s.putBytes (ws.flatMap putsBytes)).setActivity .puts) := by
  unfold State.servicePuts
  rcases s.mem.scanString memCells (s.reg 0#3) with ⟨ws, _ | _⟩
  · exact ⟨ws, .inr ⟨rfl, rfl⟩⟩
  · exact ⟨ws, .inl ⟨rfl, rfl⟩⟩

/-- What PUTSP does: as PUTS, with the bytes of `putspBytes` (45 R185). -/
theorem State.servicePutsp_cases (s : State) :
    ∃ ws, (s.mem.scanString memCells (s.reg 0#3) = (ws, true) ∧
        s.servicePutsp = ((s.putBytes (ws.flatMap putspBytes)).flush).setActivity .idle) ∨
      (s.mem.scanString memCells (s.reg 0#3) = (ws, false) ∧
        s.servicePutsp = (s.putBytes (ws.flatMap putspBytes)).setActivity .putsp) := by
  unfold State.servicePutsp
  rcases s.mem.scanString memCells (s.reg 0#3) with ⟨ws, _ | _⟩
  · exact ⟨ws, .inr ⟨rfl, rfl⟩⟩
  · exact ⟨ws, .inl ⟨rfl, rfl⟩⟩

/-- What the dispatch on a vector can be: one of the six services, or nothing (45 R180, R187). -/
theorem State.dispatchService_cases (s : State) (v : Byte) :
    (v = params.tvGetc ∧ s.dispatchService v = s.serviceGetc) ∨ (v = params.tvOut ∧ s.dispatchService v = s.serviceOut) ∨
      (v = params.tvPuts ∧ s.dispatchService v = s.servicePuts) ∨ (v = params.tvIn ∧ s.dispatchService v = s.serviceIn) ∨
      (v = params.tvPutsp ∧ s.dispatchService v = s.servicePutsp) ∨
      (v = params.tvHalt ∧ s.dispatchService v = s.serviceHalt) ∨
      (isServiceVector v = false ∧ s.dispatchService v = s) := by
  unfold State.dispatchService
  by_cases h1 : v = params.tvGetc
  · exact .inl ⟨h1, if_pos h1⟩
  by_cases h2 : v = params.tvOut
  · exact .inr (.inl ⟨h2, by rw [if_neg h1, if_pos h2]⟩)
  by_cases h3 : v = params.tvPuts
  · exact .inr (.inr (.inl ⟨h3, by rw [if_neg h1, if_neg h2, if_pos h3]⟩))
  by_cases h4 : v = params.tvIn
  · exact .inr (.inr (.inr (.inl ⟨h4, by rw [if_neg h1, if_neg h2, if_neg h3, if_pos h4]⟩)))
  by_cases h5 : v = params.tvPutsp
  · exact .inr (.inr (.inr (.inr (.inl ⟨h5, by rw [if_neg h1, if_neg h2, if_neg h3, if_neg h4, if_pos h5]⟩))))
  by_cases h6 : v = params.tvHalt
  · exact .inr (.inr (.inr (.inr (.inr (.inl
      ⟨h6, by rw [if_neg h1, if_neg h2, if_neg h3, if_neg h4, if_neg h5, if_pos h6]⟩)))))
  · refine .inr (.inr (.inr (.inr (.inr (.inr ⟨by simp [isServiceVector, *], ?_⟩)))))
    rw [if_neg h1, if_neg h2, if_neg h3, if_neg h4, if_neg h5, if_neg h6]

end Sys2Proof.Machine
end

