-- ==== Sys2Proof/Laws/Step.lean ====
section
/-! SUPPORT. What a step can be (spec 40_cycle.md R130 to R135): every proof about `step` starts from `step_cases`. -/

namespace Sys2Proof.Machine

/-- Every instruction answers a next state, from every state. -/
theorem exec_answers_next (i : Instr) (s : State) : ∃ t, exec i s = .next t := by
  cases i <;> exact ⟨_, rfl⟩

/-- When a core may fetch (40 R130). -/
theorem State.canFetch_iff (s : State) : s.canFetch = true ↔ s.rs = .running ∧ s.activity = .idle := by
  simp [State.canFetch]

/-- What a step is, whole: the fetched instruction's meaning after the fetch; or, in a RUNNING core with a TRAP in progress,
going on with it; or nothing, in a HALTED core; or the stop of a FAULTED core. -/
theorem step_cases (s : State) :
    (s.rs = .running ∧ s.activity = .idle ∧ step s = exec (decode s.fetchedWord) s.afterFetch) ∨
      (s.rs = .running ∧ s.activity ≠ .idle ∧ step s = .next s.resumeService) ∨
      (s.rs = .halted ∧ step s = .next s) ∨
      (s.rs = .faulted ∧ step s = .fault (.decodeFault s.offendingWord)) := by
  by_cases hf : s.canFetch = true
  · obtain ⟨h1, h2⟩ := s.canFetch_iff.1 hf
    exact .inl ⟨h1, h2, if_pos hf⟩
  · have hstep : step s = s.withoutFetch := if_neg hf
    rw [State.canFetch_iff] at hf
    rw [hstep]
    unfold State.withoutFetch
    rcases hrs : s.rs
    · exact .inr (.inl ⟨rfl, fun ha => hf ⟨hrs, ha⟩, rfl⟩)
    · exact .inr (.inr (.inl ⟨rfl, rfl⟩))
    · exact .inr (.inr (.inr ⟨rfl, rfl⟩))

/-- What the fetch leaves: pc incremented, everything else as the read left it (40 R131). -/
theorem State.afterFetch_eq (s : State) : s.afterFetch = (s.readEffect s.pc).setPc (s.pc + 1#16) := rfl

end Sys2Proof.Machine
end

