-- ==== Sys2Proof/Laws/HostPort.lean ====
section
/-! SUPPORT. What the host's events can do to the core (spec 15_interfaces.md R55, R57), and what the core's environment has
seen when the host stops it inside a step. -/

namespace Sys2Proof.Machine

/-! ### Actions -/

/-- The output event of an action, if it is one. -/
def EnvAction.event? : EnvAction → Option ConEvent
  | .take => none
  | .emit e => some e

/-- The output events of some actions, in order. -/
def sentBy (as : List EnvAction) : List ConEvent := as.filterMap EnvAction.event?

/-- How many characters some actions take. -/
def takenBy (as : List EnvAction) : Nat := as.count .take

@[simp] theorem sentBy_nil : sentBy [] = [] := rfl
@[simp] theorem sentBy_take (as : List EnvAction) : sentBy (.take :: as) = sentBy as := rfl
@[simp] theorem sentBy_emit (e : ConEvent) (as : List EnvAction) : sentBy (.emit e :: as) = e :: sentBy as := rfl
@[simp] theorem sentBy_append (as bs : List EnvAction) : sentBy (as ++ bs) = sentBy as ++ sentBy bs :=
  List.filterMap_append
@[simp] theorem takenBy_nil : takenBy [] = 0 := rfl
@[simp] theorem takenBy_take (as : List EnvAction) : takenBy (.take :: as) = takenBy as + 1 := by simp [takenBy]
@[simp] theorem takenBy_emit (e : ConEvent) (as : List EnvAction) : takenBy (.emit e :: as) = takenBy as := by
  simp [takenBy]
@[simp] theorem takenBy_append (as bs : List EnvAction) : takenBy (as ++ bs) = takenBy as + takenBy bs := by
  simp [takenBy]
@[simp] theorem sentBy_takes (n : Nat) : sentBy (List.replicate n .take) = [] := by
  induction n <;> simp [List.replicate_succ, *]
@[simp] theorem sentBy_emits (es : List ConEvent) : sentBy (es.map .emit) = es := by induction es <;> simp [*]
@[simp] theorem takenBy_takes (n : Nat) : takenBy (List.replicate n .take) = n := by
  induction n <;> simp [List.replicate_succ, *]
@[simp] theorem takenBy_emits (es : List ConEvent) : takenBy (es.map .emit) = 0 := by induction es <;> simp [*]

/-- What some actions do, whole: they take characters and send events, and nothing else changes. -/
theorem State.doActions_eq (as : List EnvAction) (s : State) :
    as.foldl State.doAction s = { s with kbd := s.kbd.drop (takenBy as), out := s.out ++ sentBy as } := by
  induction as generalizing s with
  | nil => simp
  | cons a as ih =>
    rw [List.foldl_cons, ih]
    cases a <;> simp [State.doAction, State.setKbd, State.emit, Nat.add_comm]

/-- Every first part of what some actions send is what some first part of the actions sends. -/
theorem sentBy_take_onto (as : List EnvAction) (j : Nat) : ∃ n, sentBy (as.take n) = (sentBy as).take j := by
  induction as generalizing j with
  | nil => exact ⟨0, by simp⟩
  | cons a as ih =>
    cases a with
    | take =>
      obtain ⟨n, h⟩ := ih j
      exact ⟨n + 1, by simpa using h⟩
    | emit e =>
      cases j with
      | zero => exact ⟨0, by simp⟩
      | succ j =>
        obtain ⟨n, h⟩ := ih j
        exact ⟨n + 1, by simpa using h⟩

/-- A first part of some actions sends a first part of what they send. -/
theorem sentBy_take_prefix (as : List EnvAction) (n : Nat) : sentBy (as.take n) <+: sentBy as :=
  ⟨sentBy (as.drop n), by rw [← sentBy_append, List.take_append_drop]⟩

/-- A first part of some actions takes no more than they take. -/
theorem takenBy_take_le (as : List EnvAction) (n : Nat) : takenBy (as.take n) ≤ takenBy as :=
  (List.take_sublist n as).count_le _

/-- The actions between two states send what the second record has more. -/
@[simp] theorem State.sentBy_actionsTo (s t : State) : sentBy (s.actionsTo t) = t.out.drop s.out.length := by
  simp [State.actionsTo, -List.map_drop]

/-- The actions between two states take the characters the first one has more. -/
@[simp] theorem State.takenBy_actionsTo (s t : State) : takenBy (s.actionsTo t) = s.kbd.length - t.kbd.length := by
  simp [State.actionsTo, -List.map_drop]

/-! ### Events -/

/-- What a core stopped in its step is, whole: it may have taken characters and sent events; nothing else has changed. -/
theorem State.stoppedInStep_cases (s : State) (done : Nat) :
    ∃ k es, s.stoppedInStep done = { s with kbd := s.kbd.drop k, out := s.out ++ es } := by
  unfold State.stoppedInStep
  split
  · exact ⟨_, _, State.doActions_eq _ _⟩
  · exact ⟨0, [], by simp⟩
  · exact ⟨0, [], by simp⟩

/-- What a core stopped at some point is, whole. -/
theorem System.stoppedAt_cases (y : System) (done : Nat) :
    ∃ k es, (y.stoppedAt done).core = { y.core with kbd := y.core.kbd.drop k, out := y.core.out ++ es } := by
  unfold System.stoppedAt
  split
  · exact y.core.stoppedInStep_cases done
  · exact ⟨0, [], by simp⟩

/-- Between two steps nothing is stopped. -/
@[simp] theorem System.stoppedAt_zero (y : System) : y.stoppedAt 0 = y := by simp [System.stoppedAt]

/-- When a run is in progress (40 R136). -/
theorem System.inProgress_iff (y : System) : y.inProgress = true ↔ y.phase = .started ∧ y.core.rs = .running := by
  simp [System.inProgress, State.runningOut]

/-- What an event can be, whole: where it can happen, and the phase and the core after it. -/
theorem System.react_cases {y z : System} {e : HostEvent} (h : y.react e = some z) :
    (∃ n, e = .reset n ∧ z = { phase := .loading, core := (y.stoppedAt n).core.assertReset, steps := 0, taken := [] }) ∨
      (∃ a v, e = .load a v ∧ y.phase = .loading ∧ z = { y with core := y.core.loadCell a v }) ∨
      (e = .start ∧ y.phase = .loading ∧ z = { y with phase := .started }) ∨
      (∃ c, e = .key c ∧ z = { y with core := y.core.keyArrives c }) ∨
      (∃ t, e = .step ∧ y.phase = .started ∧ y.core.rs = .running ∧ step y.core = .next t ∧ z = y.afterStep t) ∨
      (∃ n, e = .cut n ∧ (y.phase = .loading ∨ (y.phase = .started ∧ y.core.rs = .running)) ∧
        z = { y.stoppedAt n with phase := .abandoned }) := by
  cases e with
  | reset n => exact .inl ⟨n, rfl, (Option.some.inj h).symm⟩
  | load a v =>
    simp only [System.react, Option.ite_none_right_eq_some] at h
    exact .inr (.inl ⟨a, v, rfl, h.1, (Option.some.inj h.2).symm⟩)
  | start =>
    simp only [System.react, Option.ite_none_right_eq_some] at h
    exact .inr (.inr (.inl ⟨rfl, h.1, (Option.some.inj h.2).symm⟩))
  | key c => exact .inr (.inr (.inr (.inl ⟨c, rfl, (Option.some.inj h).symm⟩)))
  | step =>
    simp only [System.react, Option.ite_none_right_eq_some, System.inProgress_iff] at h
    obtain ⟨⟨h1, h2⟩, h⟩ := h
    split at h
    · exact .inr (.inr (.inr (.inr (.inl ⟨_, rfl, h1, h2, ‹_›, (Option.some.inj h).symm⟩))))
    · cases h
    · cases h
  | cut n =>
    simp only [System.react, Option.ite_none_right_eq_some, Bool.or_eq_true, decide_eq_true_eq,
      System.inProgress_iff] at h
    exact .inr (.inr (.inr (.inr (.inr ⟨n, rfl, h.1, (Option.some.inj h.2).symm⟩))))

end Sys2Proof.Machine
end

