-- ==== Sys2Proof/Laws/PerInstr.lean ====
section
/-! SUPPORT. Statements about every instruction as syntax, one lemma per constructor. The family `OpcodeField`: the opcode
read from bits 15:12 of the encoded word names the instruction's row of 30_encoding.md R104. -/

namespace Sys2Proof.Laws.OpcodeField

/-- Bits 15:12 of the instruction's word name its opcode (30 R100, R104). -/
def Statement (i : Instr) : Prop := opcodeOf (fieldOpcode (encode i)) = i.opcode

/-- The statement for any instruction, from the encoder's law. -/
theorem of_encode (i : Instr) : Statement i := by
  rw [Statement, fieldOpcode_encode, opcodeOf_opcodeBits]

theorem br (n z p : Bool) (off : BitVec 9) : Statement (.br n z p off) := of_encode _
theorem addReg (dr sr1 sr2 : Reg) : Statement (.addReg dr sr1 sr2) := of_encode _
theorem addImm (dr sr1 : Reg) (imm : BitVec 5) : Statement (.addImm dr sr1 imm) := of_encode _
theorem ld (dr : Reg) (off : BitVec 9) : Statement (.ld dr off) := of_encode _
theorem st (sr : Reg) (off : BitVec 9) : Statement (.st sr off) := of_encode _
theorem jsr (off : BitVec 11) : Statement (.jsr off) := of_encode _
theorem jsrr (base : Reg) : Statement (.jsrr base) := of_encode _
theorem andReg (dr sr1 sr2 : Reg) : Statement (.andReg dr sr1 sr2) := of_encode _
theorem andImm (dr sr1 : Reg) (imm : BitVec 5) : Statement (.andImm dr sr1 imm) := of_encode _
theorem ldr (dr base : Reg) (off : BitVec 6) : Statement (.ldr dr base off) := of_encode _
theorem str (sr base : Reg) (off : BitVec 6) : Statement (.str sr base off) := of_encode _
theorem rti : Statement .rti := of_encode _
theorem not (dr sr1 : Reg) : Statement (.not dr sr1) := of_encode _
theorem ldi (dr : Reg) (off : BitVec 9) : Statement (.ldi dr off) := of_encode _
theorem sti (sr : Reg) (off : BitVec 9) : Statement (.sti sr off) := of_encode _
theorem jmp (base : Reg) : Statement (.jmp base) := of_encode _
theorem res : Statement .res := of_encode _
theorem lea (dr : Reg) (off : BitVec 9) : Statement (.lea dr off) := of_encode _
theorem trap (vect : Byte) : Statement (.trap vect) := of_encode _
theorem getc : Statement .getc := of_encode _
theorem out : Statement .out := of_encode _
theorem puts : Statement .puts := of_encode _
theorem inp : Statement .inp := of_encode _
theorem putsp : Statement .putsp := of_encode _
theorem halt : Statement .halt := of_encode _

end Sys2Proof.Laws.OpcodeField
end

