-- ==== Sys2Proof/Tests/Slice0.lean ====
section
/-! SUPPORT. The model's own tests: the well-formedness smoke, decoding of words written bit by bit, single steps whose
results are the vectors of spec 95_test_vectors.md, and for every obligation that has hypotheses a state that meets them. -/

namespace Sys2Proof.Tests

open Sys2Proof Sys2Proof.Machine

/-! ### Helpers -/

/-- The state right after reset but for the pc and the word stored there. -/
def placed (pc w : Word) : State := (State.reset.setPc pc).setCell pc w

/-- The same at 0x3000, where the vectors of 95_test_vectors.md stand. -/
def p (w : Word) : State := placed 0x3000 w

/-- A step of `s`, if it answers a next state that `f` holds of. -/
def stepTo (s : State) (f : State → Bool) : Bool :=
  match step s with
  | .next t => f t
  | .fault _ => false
  | .refused _ => false

/-- The three legal values of COND, as 95_test_vectors.md names them. -/
def Z : Word := 0x0002
/-- NEGATIVE. -/
def N : Word := 0x0004
/-- POSITIVE. -/
def P : Word := 0x0001

/-! ### Well-formedness -/

/-- The check of the generic TRAP row refuses each vector that has a row of its own. -/
theorem test_wf_refuses : (Instr.trap 0x20).wf = false ∧ (Instr.trap 0x21).wf = false ∧ (Instr.trap 0x22).wf = false ∧
    (Instr.trap 0x23).wf = false ∧ (Instr.trap 0x24).wf = false ∧ (Instr.trap 0x25).wf = false := by decide

/-- It accepts the vectors on either side of the six. -/
theorem test_wf_accepts : (Instr.trap 0x1F).wf = true ∧ (Instr.trap 0x26).wf = true ∧ Instr.getc.wf = true := by decide

/-! ### Decoding: words from 30_encoding.md R101, R104 and 95_test_vectors.md 2.1 -/

theorem test_decode_br : decode 0b0000_010_000000011 = .br false true false 3 ∧
    decode 0b0000_100_100000000 = .br true false false 0x100 ∧ decode 0b0000_001_000000001 = .br false false true 1 := by
  decide

theorem test_decode_add : decode 0b0001_010_000_0_00_001 = .addReg 2 0 1 ∧
    decode 0b0001_011_100_0_11_101 = .addReg 3 4 5 ∧ decode 0b0001_001_001_1_10000 = .addImm 1 1 0x10 := by decide

theorem test_decode_and : decode 0b0101_011_001_0_00_010 = .andReg 3 1 2 ∧
    decode 0b0101_000_000_1_00000 = .andImm 0 0 0 := by decide

theorem test_decode_not : decode 0b1001_001_000_111111 = .not 1 0 ∧ decode 0b1001_001_000_000000 = .not 1 0 := by decide

theorem test_decode_jump : decode 0b0100_1_00000010000 = .jsr 0x10 ∧ decode 0b0100_1_10000000000 = .jsr 0x400 ∧
    decode 0b0100_0_00_010_000000 = .jsrr 2 ∧ decode 0b0100_0_11_010_111111 = .jsrr 2 ∧
    decode 0b1100_000_011_000000 = .jmp 3 ∧ decode 0b1100_111_011_111111 = .jmp 3 := by decide

theorem test_decode_loads : decode 0b0010_001_000000101 = .ld 1 5 ∧ decode 0b1010_010_000000010 = .ldi 2 2 ∧
    decode 0b0110_011_100_111111 = .ldr 3 4 0x3F ∧ decode 0b1110_000_000000010 = .lea 0 2 := by decide

theorem test_decode_stores : decode 0b0011_001_000000100 = .st 1 4 ∧ decode 0b1011_001_000000001 = .sti 1 1 ∧
    decode 0b0111_001_010_000011 = .str 1 2 3 := by decide

theorem test_decode_trap : decode 0b1111_0000_00100000 = .getc ∧ decode 0b1111_0000_00100001 = .out ∧
    decode 0b1111_0000_00100010 = .puts ∧ decode 0b1111_0000_00100011 = .inp ∧ decode 0b1111_0000_00100100 = .putsp ∧
    decode 0b1111_1010_00100101 = .halt ∧ decode 0b1111_0000_00011111 = .trap 0x1F ∧
    decode 0b1111_0000_00100110 = .trap 0x26 := by decide

theorem test_decode_reserved : decode 0b1000_000000000000 = .rti ∧ decode 0b1000_111111111111 = .rti ∧
    decode 0b1101_000100100011 = .res := by decide

/-- The encoder gives the assembler's words (95_test_vectors.md 2.1: the rows without "ignored"). -/
theorem test_encode : encode (.not 1 0) = 0x923F ∧ encode (.jsrr 2) = 0x4080 ∧ encode (.jmp 7) = 0xC1C0 ∧
    encode (.addImm 1 1 0x10) = 0x1270 ∧ encode .halt = 0xF025 ∧ encode (.str 1 2 3) = 0x7283 := by decide

/-- The masks are those of the formats' pictures, dashes and bracketed values left out (30_encoding.md R101). -/
theorem test_examinedBits : examinedBits (.addReg 0 0 0) = 0b1111_111_111_1_00_111 ∧
    examinedBits (.not 0 0) = 0b1111_111_111_000000 ∧ examinedBits (.jsrr 0) = 0b1111_1_00_111_000000 ∧
    examinedBits (.jmp 0) = 0b1111_000_111_000000 ∧ examinedBits .halt = 0b1111_0000_11111111 ∧
    examinedBits .rti = 0xF000 ∧ examinedBits (.br true true true 0) = 0xFFFF ∧ examinedBits (.str 0 0 0) = 0xFFFF := by decide

/-- The table's numbering: one word, bit 0 least significant. -/
theorem test_decodeTableWord : decodeTableWord 16 0x1401 = some (.addReg 2 0 1) ∧
    decodeTableWord 16 0xF025 = some .halt := by decide

/-! ### Arithmetic and logic (95_test_vectors.md 2.2) -/

theorem test_addReg_sign : stepTo (((p 0x1401).setReg 0 0x7FFF).setReg 1 1)
    (fun t => t.reg 2 == 0x8000 && t.cond == N && t.pc == 0x3001) = true := by decide

theorem test_addReg_wraps : stepTo (((p 0x1401).setReg 0 0xFFFF).setReg 1 1)
    (fun t => t.reg 2 == 0 && t.cond == Z && t.reg 0 == 0xFFFF) = true := by decide

theorem test_addImm_negative : stepTo ((p 0x1270).setReg 1 0x0010) (fun t => t.reg 1 == 0 && t.cond == Z) = true := by
  decide

theorem test_addImm_positive : stepTo (p 0x1025) (fun t => t.reg 0 == 5 && t.cond == P) = true := by decide

theorem test_andReg : stepTo (((p 0x5642).setReg 1 0xF0F0).setReg 2 0xFF00)
    (fun t => t.reg 3 == 0xF000 && t.cond == N) = true := by decide

theorem test_andImm_extends : stepTo ((p 0x52B0).setReg 2 0xABCD) (fun t => t.reg 1 == 0xABC0 && t.cond == N) = true := by
  decide

theorem test_andImm_low : stepTo ((p 0x52AF).setReg 2 0xABCD) (fun t => t.reg 1 == 0x000D && t.cond == P) = true := by
  decide

theorem test_not_same_register : stepTo ((p 0x927F).setReg 1 0x7FFF) (fun t => t.reg 1 == 0x8000 && t.cond == N) = true := by
  decide

theorem test_not_ignores_low_bits : stepTo ((p 0x9200).setReg 0 0x00FF)
    (fun t => t.reg 1 == 0xFF00 && t.cond == N) = true := by decide

/-! ### Control transfer (95_test_vectors.md 2.3) -/

theorem test_br_taken : stepTo ((p 0x0900).setCond N) (fun t => t.pc == 0x2F01 && t.cond == N) = true := by decide

theorem test_br_not_taken : stepTo ((p 0x0A02).setCond Z) (fun t => t.pc == 0x3001) = true := by decide

theorem test_jmp : stepTo ((p 0xCEFF).setReg 3 0x1234) (fun t => t.pc == 0x1234 && t.reg 7 == 0) = true := by decide

theorem test_jsr_backward : stepTo ((p 0x4C00).setCond N)
    (fun t => t.pc == 0x2C01 && t.reg 7 == 0x3001 && t.cond == N) = true := by decide

theorem test_jsr_wraps : stepTo (placed 0xFFFF 0x4801) (fun t => t.pc == 0x0001 && t.reg 7 == 0) = true := by decide

theorem test_jsrr : stepTo ((p 0x4080).setReg 2 0x4000) (fun t => t.pc == 0x4000 && t.reg 7 == 0x3001) = true := by decide

theorem test_jsrr_r7 : stepTo ((p 0x41C0).setReg 7 0x5000) (fun t => t.pc == 0x3001 && t.reg 7 == 0x3001) = true := by
  decide

/-! ### Loads (95_test_vectors.md 2.4) -/

theorem test_ld_negative : stepTo ((p 0x2205).setCell 0x3006 0xFFFF) (fun t => t.reg 1 == 0xFFFF && t.cond == N) = true := by
  decide

theorem test_ld_backward : stepTo ((p 0x2300).setCell 0x2F01 0x0042) (fun t => t.reg 1 == 0x0042 && t.cond == P) = true := by
  decide

theorem test_ldi_status_ready : stepTo (((p 0xA402).setCell 0x3003 0xFE00).keyArrives 0x61)
    (fun t => t.reg 2 == 0x8000 && t.cond == N && t.cell 0xFE02 == 0x0061 && t.kbd == []) = true := by decide

theorem test_ldi_data : stepTo ((((p 0xA402).setCell 0x3003 0xFE02).setCell 0xFE02 0x0061).keyArrives 0x62)
    (fun t => t.reg 2 == 0x0061 && t.cond == P && t.kbd == [0x62]) = true := by decide

theorem test_ldr_negative_offset : stepTo (((p 0x673F).setReg 4 0x4001).setCell 0x4000 0x8001)
    (fun t => t.reg 3 == 0x8001 && t.cond == N) = true := by decide

theorem test_ldr_wraps : stepTo (((p 0x671F).setReg 4 0xFFF0).setCell 0x000F 0x0007)
    (fun t => t.reg 3 == 0x0007 && t.cond == P) = true := by decide

theorem test_lea : stepTo (placed 0xFFFF 0xE1FF) (fun t => t.reg 0 == 0xFFFF && t.cond == N && t.pc == 0) = true := by decide

theorem test_lea_sign : stepTo (placed 0x7F7F 0xE080) (fun t => t.reg 0 == 0x8000 && t.cond == N) = true := by decide

/-! ### Stores (95_test_vectors.md 2.5) -/

theorem test_st : stepTo (((p 0x3204).setReg 1 0xBEEF).setCond P)
    (fun t => t.cell 0x3005 == 0xBEEF && t.cond == P) = true := by decide

theorem test_st_itself : stepTo ((p 0x33FF).setReg 1 0x1234) (fun t => t.cell 0x3000 == 0x1234 && t.pc == 0x3001) = true := by
  decide

theorem test_sti : stepTo ((((p 0xB201).setReg 1 0xCAFE).setCell 0x3002 0x5000).setCond N)
    (fun t => t.cell 0x5000 == 0xCAFE && t.cell 0x3002 == 0x5000 && t.cond == N) = true := by decide

theorem test_sti_status : stepTo ((((p 0xB201).setReg 1 0xCAFE).setCell 0x3002 0xFE00).keyArrives 0x61)
    (fun t => t.cell 0xFE00 == 0xCAFE && t.kbd == [0x61]) = true := by decide

theorem test_str : stepTo (((p 0x7283).setReg 1 0x0F0F).setReg 2 0x6000) (fun t => t.cell 0x6003 == 0x0F0F) = true := by decide

theorem test_str_wraps : stepTo (((p 0x72A0).setReg 1 1).setReg 2 0x0010) (fun t => t.cell 0xFFF0 == 1) = true := by decide

/-! ### TRAP (95_test_vectors.md 2.6) -/

theorem test_getc : stepTo (((p 0xF020).setCond N).keyArrives 0xFF)
    (fun t => t.reg 0 == 0x00FF && t.cond == P && t.reg 7 == 0x3001 && t.out == [] && t.kbd == []) = true := by decide

theorem test_getc_holds : stepTo (p 0xF020)
    (fun t => t.reg 7 == 0x3001 && t.activity == .getc && t.rs == .running && t.pc == 0x3001) = true := by decide

theorem test_out : stepTo (((p 0xF021).setReg 0 0x1241).setCond N)
    (fun t => t.out == [.put 0x41, .flush] && t.reg 0 == 0x1241 && t.cond == N && t.reg 7 == 0x3001) = true := by decide

theorem test_puts_ignores_high_bytes :
    stepTo ((((p 0xF022).setReg 0 0x4000).setCell 0x4000 0x0048).setCell 0x4001 0x0169)
      (fun t => t.out == [.put 0x48, .put 0x69, .flush] && t.reg 7 == 0x3001 && t.activity == .idle) = true := by
  decide +kernel

theorem test_puts_wraps : stepTo ((((p 0xF022).setReg 0 0xFFFF).setCell 0xFFFF 0x0041).setCell 0x0000 0x0042)
    (fun t => t.out == [.put 0x41, .put 0x42, .flush]) = true := by decide +kernel

/-- The prompt is "Enter a character: ", of which the first, the last printed and the last byte are checked. -/
theorem test_in : stepTo (((p 0xF023).setCond N).keyArrives 0x79)
    (fun t => t.reg 0 == 0x0079 && t.cond == P && t.out.length == 21 && t.out[0]? == some (.put 0x45) &&
      t.out[17]? == some (.put 0x3A) && t.out[18]? == some (.put 0x20) && t.out[19]? == some (.put 0x79) &&
      t.out[20]? == some .flush) = true := by decide

theorem test_putsp : stepTo ((((p 0xF024).setReg 0 0x4000).setCell 0x4000 0x6548).setCell 0x4001 0x006C)
    (fun t => t.out == [.put 0x48, .put 0x65, .put 0x6C, .flush]) = true := by decide +kernel

theorem test_putsp_zero_low_byte : stepTo (((p 0xF024).setReg 0 0x4000).setCell 0x4000 0x4100)
    (fun t => t.out == [.put 0x00, .put 0x41, .flush]) = true := by decide +kernel

theorem test_halt : stepTo ((p 0xFA25).setCond P)
    (fun t => t.rs == .halted && t.cond == P && t.reg 7 == 0x3001 &&
      t.out == [.put 0x48, .put 0x41, .put 0x4C, .put 0x54, .put 0x0A, .flush]) = true := by decide

theorem test_trap_unknown : stepTo (((p 0xF0FF).setReg 0 7).setCond P)
    (fun t => t == (((p 0xF0FF).setReg 0 7).setCond P |>.setPc 0x3001 |>.setReg 7 0x3001)) = true := by decide

theorem test_trap_zero : stepTo (p 0xF000) (fun t => t == ((p 0xF000).setPc 0x3001).setReg 7 0x3001) = true := by decide

/-! ### Reserved opcodes (95_test_vectors.md 2.7) -/

theorem test_rti : stepTo (p 0x8000) (fun t => t == ((p 0x8000).setPc 0x3001).setRs .faulted) = true := by decide

theorem test_res : stepTo (((p 0xD123).setReg 1 5).setCond N)
    (fun t => t.rs == .faulted && t.pc == 0x3001 && t.reg 1 == 5 && t.cond == N && t.reg 7 == 0) = true := by decide

/-! ### Memory-mapped input, reset (95_test_vectors.md 2.8, 2.9) -/

theorem test_poll_then_data : ((State.reset.keyArrives 0x61).memRead 0xFE00).1 = 0x8000 ∧
    (((State.reset.keyArrives 0x61).memRead 0xFE00).2.memRead 0xFE02).1 = 0x0061 ∧
    ((State.reset.keyArrives 0x61).memRead 0xFE02).1 = 0x0000 := by decide

theorem test_store_to_status_is_overwritten : ((State.reset.memWrite 0xFE00 0xFFFF).memRead 0xFE00).1 = 0x0000 ∧
    ((State.reset.memWrite 0xFE02 0x1234).memRead 0xFE02).1 = 0x1234 := by decide

theorem test_fetch_at_status_with_key : stepTo ((State.reset.setPc 0xFE00).keyArrives 0x61)
    (fun t => t.rs == .faulted && t.pc == 0xFE01 && t.cell 0xFE02 == 0x0061) = true := by decide

theorem test_fetch_at_status_without_key : stepTo (State.reset.setPc 0xFE00)
    (fun t => t.rs == .running && t.pc == 0xFE01) = true := by decide

theorem test_first_step : stepTo State.reset (fun t => t == State.reset.setPc 1) = true := by decide

theorem test_pc_wraps : stepTo (State.reset.setPc 0xFFFF) (fun t => t.pc == 0) = true := by decide

/-- A placed word is the first instruction after reset. -/
theorem test_withFetchWord : stepTo (State.reset.withFetchWord 16 0x1025) (fun t => t.reg 0 == 5 && t.pc == 1) = true ∧
    stepTo (State.reset.withFetchWord 16 0xF020) (fun t => t.activity == .getc && t.reg 7 == 1) = true := by decide

/-- The image of scenario A (95_test_vectors.md S6): its words are at 0x3000 and 0x3001, and the pc stays `PC_RESET`. -/
theorem test_launch : (State.launch [[0x30, 0x00, 0x10, 0x25, 0xF0, 0x25]]).map
    (fun s => (s.cell 0x3000, s.cell 0x3001, s.cell 0x3002, s.pc)) = some (0x1025, 0xF025, 0, 0) := by decide

/-! ### Witnesses: for each obligation that has hypotheses, a state and operands that meet all of them, at the ends of the
ranges its clauses speak of -/

/-- A reset state with characters pending. -/
def keys (q : List Byte) : State := State.reset.setKbd q

/-- A reset state with one cell stored. -/
def holding (a v : Word) : State := State.reset.setCell a v

/-- The memory in which every cell is 1. -/
def ones : Memory := (List.range' 0 65536).map fun k => (k, 0x0001#16)

/-- The state with that memory. -/
def full : State := State.reset.setMem ones

/-- Every listed cell of `ones` reads 1. -/
theorem read_ones (n lo a : Nat) (h : lo ≤ a) (h' : a < lo + n) :
    Memory.read ((List.range' lo n).map fun k => (k, 0x0001#16)) a = 0x0001#16 := by
  induction n generalizing lo with
  | zero => omega
  | succ n ih =>
    rw [List.range'_succ, List.map_cons, Memory.read]
    split
    · rfl
    · exact ih (lo + 1) (by omega) (by omega)

theorem test_witness_DecodeOfEncodeIsIdentity : (Instr.trap 0x1F).wf = true ∧ (Instr.trap 0x26).wf = true ∧
    (Instr.br true false true 0x1FF).wf = true ∧ Instr.rti.wf = true := by decide

theorem test_witness_IgnoredBitsDoNotMatter :
    (0x171D#16 &&& examinedBits (decode 0x171D) = 0x1705#16 &&& examinedBits (decode 0x171D)) ∧
    (0x9200#16 &&& examinedBits (decode 0x9200) = 0x923F#16 &&& examinedBits (decode 0x9200)) ∧
    (0x8000#16 &&& examinedBits (decode 0x8000) = 0x8FFF#16 &&& examinedBits (decode 0x8000)) := by decide

theorem test_witness_SignExtension : 0 ≤ 16 ∧ 16 ≤ 16 := by decide

theorem test_witness_SetccFollowsTheWrittenValue :
    (flagRegister (.addReg 2 0 1) = some 2 ∧ ((Instr.addReg 2 0 1).opcode = .trap → State.reset.kbd ≠ []) ∧
      ∃ t, exec (.addReg 2 0 1) State.reset = .next t) ∧
    (flagRegister .inp = some 0 ∧ (Instr.inp.opcode = .trap → (keys [0x41]).kbd ≠ []) ∧
      ∃ t, exec .inp (keys [0x41]) = .next t) :=
  ⟨⟨by decide, by decide, _, rfl⟩, by decide, by decide, _, rfl⟩

/-- No flag register; a flag register with and without a pending character; a held call with one. -/
theorem test_witness_CondIsWritten :
    (flagRegister (.jsr 0) = none ∧ ∃ t, exec (.jsr 0) State.reset = .next t) ∧
    (flagRegister .getc = some 0 ∧ Instr.getc.opcode = .trap ∧ State.reset.kbd = [] ∧
      ∃ t, exec .getc State.reset = .next t) ∧
    (flagRegister .getc = some 0 ∧ ¬ (Instr.getc.opcode = .trap ∧ (keys [0x00]).kbd = []) ∧
      ∃ t, exec .getc (keys [0x00]) = .next t) ∧
    (Instr.getc.opcode ≠ .br) ∧
    (((keys [0x41]).setActivity .getc).activity = .getc ∧ ((keys [0x41]).setActivity .getc).kbd ≠ []) ∧
    ¬ (((State.reset.activity = .getc ∨ State.reset.activity = .input) ∧ State.reset.kbd ≠ [])) :=
  ⟨⟨by decide, _, rfl⟩, ⟨by decide, by decide, by decide, _, rfl⟩, ⟨by decide, by decide, _, rfl⟩, by decide, by decide,
    by decide⟩

/-- The three cases of a read: the two neighbours of the status cell, no character, a character. -/
theorem test_witness_MemRead : State.reset.mem.wf = true ∧ 0xFDFF ≠ params.kbsrAddr ∧ 0xFE01 ≠ params.kbsrAddr ∧
    params.kbdrAddr ≠ params.kbsrAddr ∧ State.reset.kbd = [] ∧ (keys [0xFF]).mem.wf = true ∧
    (keys [0xFF]).kbd = 0xFF :: [] := by decide

/-- A canonical memory with cells listed at both ends of the address space. -/
theorem test_witness_MemWrite : ((holding 0x0000 1).setCell 0xFFFF 0x8000).mem.wf = true := by decide

theorem test_witness_DataCell : (keys [0x61, 0x62]).mem.wf = true ∧ (keys [0x61, 0x62]).kbd = 0x61 :: 0x62 :: [] ∧
    (keys [0x61]).kbd = 0x61 :: [] := by decide

/-- An ordinary pc, the last one, and the status cell. -/
theorem test_witness_StepFetches :
    ((p 0x1401).rs = .running ∧ (p 0x1401).activity = .idle ∧ decode ((p 0x1401).memRead (p 0x1401).pc).1 = .addReg 2 0 1) ∧
    (decode ((placed 0xFFFF 0x4801).memRead (placed 0xFFFF 0x4801).pc).1 = .jsr 1) ∧
    (decode (((keys [0x61]).setPc 0xFE00).memRead 0xFE00).1 = .rti) := by decide

theorem test_witness_StoppedCore : (State.reset.setRs .halted).rs = .halted ∧ (State.reset.setRs .faulted).rs = .faulted := by
  decide

theorem test_witness_HeldCall :
    ((State.reset.setActivity .getc).rs = .running ∧ (State.reset.setActivity .getc).activity = .getc ∧
      (State.reset.setActivity .getc).kbd = []) ∧
    (((keys [0x80]).setActivity .input).rs = .running ∧ ((keys [0x80]).setActivity .input).activity = .input ∧
      ((keys [0x80]).setActivity .input).kbd = 0x80 :: []) := by decide

theorem test_witness_ArrivalDuringHold : State.reset.rs = .running ∧ State.reset.kbd = [] := by decide

/-- A branch, the three other transfers, and a TRAP, each with a next state. -/
theorem test_witness_PcIsWritten : (State.reset.setPc 0xFFFF).pc = 0xFFFF ∧
    (∃ t, exec (.br true true true 0x1FF) State.reset = .next t) ∧ (∃ t, exec (.jmp 7) State.reset = .next t) ∧
    (∃ t, exec (.jsr 0x7FF) State.reset = .next t) ∧ (∃ t, exec (.jsrr 7) State.reset = .next t) ∧
    (Instr.getc.opcode ≠ .br ∧ Instr.getc.opcode ≠ .jmp ∧ Instr.getc.opcode ≠ .jsr ∧
      ∃ t, exec .getc State.reset = .next t) :=
  ⟨by decide, ⟨_, rfl⟩, ⟨_, rfl⟩, ⟨_, rfl⟩, ⟨_, rfl⟩, by decide, by decide, by decide, _, rfl⟩

/-- Each legal value of COND. -/
theorem test_witness_BranchTruthTable : (State.reset.setCond N).condLegal = true ∧ (State.reset.setCond Z).condLegal = true ∧
    (State.reset.setCond P).condLegal = true := by decide

theorem test_witness_Calls : (7 : Reg) = 7#3 ∧ (6 : Reg) ≠ 7#3 := by decide

/-- A pointer read from an ordinary cell, and one read from the status cell itself. -/
theorem test_witness_LoadIndirect :
    ((holding 0x0002 0x4000).memRead ((holding 0x0002 0x4000).pcRel9 2) = (0x4000, holding 0x0002 0x4000)) ∧
    (((keys [0x61]).setPc 0xFE00).memRead (((keys [0x61]).setPc 0xFE00).pcRel9 0) =
      (0x8000, (((keys [0x61]).setPc 0xFE00).setCell 0xFE00 0x8000).setCell 0xFE02 0x0061 |>.setKbd [])) ∧
    (holding 0x0002 0x4000).pcRel9 2 ≠ params.kbsrAddr ∧ (0x4000 : Word) ≠ params.kbsrAddr := by decide

theorem test_witness_Stores : (holding 0x3000 1).mem.wf = true := by decide

theorem test_witness_StoreIndirect : (holding 0x0002 0x4000).mem.wf = true ∧
    (holding 0x0002 0x4000).memRead ((holding 0x0002 0x4000).pcRel9 2) = (0x4000, holding 0x0002 0x4000) ∧
    (holding 0x0002 0x4000).pcRel9 2 ≠ params.kbsrAddr := by decide

/-- The last vector below the six and the first above. -/
theorem test_witness_UnknownVector : (0x1F : Byte).toNat < 0x20 ∧ 0x25 < (0x26 : Byte).toNat := by decide

theorem test_witness_TrapDispatches : Instr.halt.opcode = .trap ∧ (Instr.trap 0x26).opcode = .trap ∧
    (∃ t, exec .halt State.reset = .next t) ∧ (∃ t, exec (.trap 0x26) State.reset = .next t) :=
  ⟨by decide, by decide, ⟨_, rfl⟩, _, rfl⟩

theorem test_witness_GetcAndIn : (keys []).kbd = [] ∧ (keys [0x00]).kbd = 0x00 :: [] ∧ (keys [0xFF, 1]).kbd = 0xFF :: [1] := by
  decide

/-- The empty string, and a string of two cells over the end of the address space. -/
theorem test_witness_Puts :
    (0 < 65536 ∧ (∀ j < 0, State.reset.cell (State.reset.reg 0#3 + BitVec.ofNat 16 j) ≠ 0x0000#16) ∧
      State.reset.cell (State.reset.reg 0#3 + BitVec.ofNat 16 0) = 0x0000#16) ∧
    (2 < 65536 ∧ (∀ j < 2, (((holding 0xFFFF 0x41).setCell 0 0x4200).setReg 0 0xFFFF).cell
        ((((holding 0xFFFF 0x41).setCell 0 0x4200).setReg 0 0xFFFF).reg 0#3 + BitVec.ofNat 16 j) ≠ 0x0000#16) ∧
      (((holding 0xFFFF 0x41).setCell 0 0x4200).setReg 0 0xFFFF).cell
        ((((holding 0xFFFF 0x41).setCell 0 0x4200).setReg 0 0xFFFF).reg 0#3 + BitVec.ofNat 16 2) = 0x0000#16) := by decide

theorem test_witness_UnterminatedString : full.rs = .running ∧ ∀ a, full.cell a ≠ 0x0000#16 := by
  refine ⟨rfl, fun a => ?_⟩
  have h : full.cell a = 0x0001#16 := read_ones 65536 0 a.toNat (Nat.zero_le _) (by omega)
  rw [h]
  decide

theorem test_witness_DecodeFault :
    ((p 0x8000).rs = .running ∧ (p 0x8000).activity = .idle ∧ decode ((p 0x8000).memRead (p 0x8000).pc).1 = .rti) ∧
    (decode ((p 0xDFFF).memRead (p 0xDFFF).pc).1 = .res) := by decide

/-- The fault of an ordinary cell, and of the status cell with a character pending. -/
theorem test_witness_OffendingWord :
    ((p 0xD123).mem.wf = true ∧ (p 0xD123).rs = .running ∧
      ∃ t, step (p 0xD123) = .next t ∧ t.rs = .faulted) ∧
    (((keys [0x61]).setPc 0xFE00).mem.wf = true ∧ ((keys [0x61]).setPc 0xFE00).rs = .running ∧
      ∃ t, step ((keys [0x61]).setPc 0xFE00) = .next t ∧ t.rs = .faulted) :=
  ⟨⟨by decide, by decide, _, rfl, by decide⟩, by decide, by decide, _, rfl, by decide⟩

theorem test_witness_OnlyReservedOpcodes : State.reset.rs = .running ∧ (full.setActivity .puts).rs = .running := by decide

/-- A running, a halting, a faulting and a halted step; an event. -/
theorem test_witness_RunState : (∃ z, System.powerUp.react .start = some z) ∧
    (∃ z, System.powerUp.react (.reset 0) = some z) ∧ (∃ t, step State.reset = .next t) ∧
    ((p 0xF025).rs = .running ∧ (p 0xF025).activity = .idle ∧ decode ((p 0xF025).memRead (p 0xF025).pc).1 = .halt ∧
      ∃ t, step (p 0xF025) = .next t ∧ t.rs = .halted) ∧
    (∃ t, step (p 0xD000) = .next t ∧ t.rs = .faulted) ∧ (∃ t, step (State.reset.setRs .halted) = .next t) :=
  ⟨⟨_, rfl⟩, ⟨_, rfl⟩, ⟨_, rfl⟩, ⟨by decide, by decide, by decide, _, rfl, by decide⟩, ⟨_, rfl, by decide⟩, _, rfl⟩

theorem test_witness_Registers : ∃ t, exec .getc (keys [0x41]) = .next t := ⟨_, rfl⟩

/-- A store beside the cell looked at, and a load that polls, for a cell that is no keyboard cell and for one in an
instruction that does not poll. -/
theorem test_witness_Cells :
    (∃ t, exec (.st 1 0) State.reset = .next t ∧ storeAddress (.st 1 0) State.reset ≠ some 0x0001) ∧
    ((∃ t, exec (.ld 1 0) (State.reset.setPc 0xFE00) = .next t) ∧
      storeAddress (.ld 1 0) (State.reset.setPc 0xFE00) ≠ some 0xFE01 ∧
      ¬ ((0xFE01 : Word) = params.kbsrAddr ∨ (0xFE01 : Word) = params.kbdrAddr)) ∧
    ((∃ t, exec (.ld 1 0) (State.reset.setPc 0xFE02) = .next t) ∧
      storeAddress (.ld 1 0) (State.reset.setPc 0xFE02) ≠ some params.kbdrAddr ∧
      params.kbsrAddr ∉ readAddresses (.ld 1 0) (State.reset.setPc 0xFE02)) :=
  ⟨⟨_, rfl, by decide⟩, ⟨⟨_, rfl⟩, by decide, by decide⟩, ⟨_, rfl⟩, by decide, by decide⟩

theorem test_witness_OnlyServices : (∃ t, exec .getc (keys [0x41]) = .next t) ∧ producesOutput .getc = false ∧
    (∃ t, step (p 0xF021) = .next t) := ⟨⟨_, rfl⟩, by decide, _, rfl⟩

theorem test_witness_AStepTakes : (keys [0x61, 0x62]).mem.wf = true ∧ ∃ t, step ((keys [0x61, 0x62]).setPc 0xFE00) = .next t :=
  ⟨by decide, _, rfl⟩

/-- ST, STI and STR, each storing to the cell after itself. -/
theorem test_witness_StoreIsSeen :
    ((p 0x3200).mem.wf = true ∧ (p 0x3200).rs = .running ∧ (p 0x3200).activity = .idle ∧
      storedRegister (decode (p 0x3200).fetchedWord) = some 1 ∧
      storeAddress (decode (p 0x3200).fetchedWord) (p 0x3200).afterFetch = some 0x3001 ∧
      (p 0x3200).pc + 1#16 = 0x3001 ∧ (p 0x3200).pc + 1#16 ≠ params.kbsrAddr) ∧
    (storedRegister (decode ((p 0xB201).setCell 0x3002 0x3001).fetchedWord) = some 1 ∧
      storeAddress (decode ((p 0xB201).setCell 0x3002 0x3001).fetchedWord) ((p 0xB201).setCell 0x3002 0x3001).afterFetch =
        some 0x3001) ∧
    (storedRegister (decode ((p 0x7283).setReg 2 0x2FFE).fetchedWord) = some 1 ∧
      storeAddress (decode ((p 0x7283).setReg 2 0x2FFE).fetchedWord) ((p 0x7283).setReg 2 0x2FFE).afterFetch =
        some 0x3001) := by decide

/-- The reset state meets the invariant, and a step from it answers a next state; so does a held one. -/
theorem test_witness_StepKeepsTheInvariant : State.reset.Inv ∧ (∃ t, step State.reset = .next t) ∧
    (State.reset.setActivity .getc).Inv ∧ (∃ t, step (State.reset.setActivity .getc) = .next t) :=
  ⟨⟨by decide, by decide, by decide⟩, ⟨_, rfl⟩, ⟨by decide, by decide, by decide⟩, _, rfl⟩

/-- No image, and one image of one word. -/
theorem test_witness_Launch : (∃ s, State.launch [] = some s) ∧ (∃ s, State.launch [[0x30, 0x00, 0xF0, 0x25]] = some s) :=
  ⟨⟨_, rfl⟩, _, rfl⟩

/-- Each event where it can happen. -/
theorem test_witness_HostEvents : System.powerUp.core.Inv ∧ (∃ z, System.powerUp.react (.reset 0) = some z) ∧
    (∃ z, System.powerUp.react (.load 0xFFFF 1) = some z) ∧
    (∃ z, System.powerUp.react .start = some z ∧ ∃ z', z.react .step = some z') ∧
    (∃ z, System.powerUp.react (.key 0x41) = some z) ∧ (∃ z, System.powerUp.react (.cut 0) = some z) :=
  ⟨⟨by decide, by decide, by decide⟩, ⟨_, rfl⟩, ⟨_, rfl⟩, ⟨_, rfl, _, rfl⟩, ⟨_, rfl⟩, _, rfl⟩

/-- An image at the top of the address space, whose second word is past the end; and images too short. -/
theorem test_witness_Loader : Memory.wf [] = true ∧ ([0x12, 0x34, 0x56, 0x78] : List Byte)[2 * 0]? = some 0x12 ∧
    ([0x12, 0x34, 0x56, 0x78] : List Byte)[2 * 0 + 1]? = some 0x34 ∧
    (0xFF : Byte).toNat * 256 + (0xFF : Byte).toNat + 0 ≤ 0xFFFF ∧
    loadImage [] [0xFF, 0xFF, 0x12, 0x34, 0x56, 0x78] = some [(0xFFFF, 0x1234)] ∧
    ([] : List Byte).length < 2 ∧ ([0x30] : List Byte).length < 2 := by decide

/-- No cell, and the longest walk there is: up to the status cell. -/
theorem test_witness_ZeroCells : (0 ≤ 0xFE00 ∧ ∀ a < 0, Memory.read [(0, 0x1025)] a = 0x0000#16) ∧
    (0xFE00 ≤ 0xFE00 ∧ ∀ a < 0xFE00, Memory.read [(0xFE00, 0xF025)] a = 0x0000#16) := by
  refine ⟨by decide, by decide, fun a ha => ?_⟩
  rw [Memory.read, if_neg (by omega)]
  rfl

theorem test_witness_PlacedWord : State.reset.mem.wf = true ∧ State.reset.pc ≠ params.kbsrAddr ∧
    (State.reset.setPc 0xFFFF).pc ≠ params.kbsrAddr := by decide

/-- A started run with the core in the state `s`. -/
def started (s : State) : System := { System.powerUp with phase := .started, core := s }

/-- A cut of a run that is loaded and of one in the middle of a HALT; an ended run, which no cut can follow. -/
theorem test_witness_HostActs : (∃ z, System.powerUp.react (.cut 0) = some z) ∧
    (∃ z, (started (p 0xF025)).react (.cut 3) = some z) ∧
    (started (State.reset.setRs .halted)).react (.cut 0) = none ∧ (0 : Nat) = 0 :=
  ⟨⟨_, rfl⟩, ⟨_, rfl⟩, by decide, rfl⟩

/-- A halted and a faulted run, and an event that is no reset. -/
theorem test_witness_EndedRun : (started (State.reset.setRs .halted)).phase = .started ∧
    (started (State.reset.setRs .halted)).core.rs ≠ .running ∧
    (started (State.reset.setRs .faulted)).core.rs ≠ .running ∧ (∀ n, HostEvent.key 0x41 ≠ .reset n) ∧
    (∃ z, (started (State.reset.setRs .faulted)).react (.key 0x41) = some z) :=
  ⟨rfl, by decide, by decide, fun _ => nofun, _, rfl⟩

/-- An IN with a character pending, in a run that is going on; a first part of what it sends. -/
theorem test_witness_CutInsideAStep : (started ((p 0xF023).keyArrives 0x79)).core.mem.wf = true ∧
    (started ((p 0xF023).keyArrives 0x79)).phase = .started ∧ (started ((p 0xF023).keyArrives 0x79)).core.rs = .running ∧
    ∃ t, step (started ((p 0xF023).keyArrives 0x79)).core = .next t ∧ [] <+: [ConEvent.put 0x45] ∧
      [ConEvent.put 0x45] <+: t.out :=
  ⟨by decide, rfl, rfl, _, rfl, by decide, by decide⟩

/-- HALT cut after two of its characters: the record holds "HA", which a reset at that moment keeps (15 R57, 70 R240). -/
theorem test_cut_in_halt : ((started (p 0xF025)).react (.cut 2)).map (fun z => (z.core.out, z.readout)) =
      some ([.put 0x48, .put 0x41], none) ∧
    ((started (p 0xF025)).react (.reset 2)).map (fun z => (z.core.out, z.core.pc, z.core.cell 0x3000)) =
      some ([.put 0x48, .put 0x41], 0, 0) := by decide

/-- IN takes its character after the 19 bytes of its prompt and before its echo (45 R184). -/
theorem test_cut_in_in : ((started ((p 0xF023).keyArrives 0x79)).react (.cut 19)).map
      (fun z => (z.core.out.length, z.core.kbd, z.taken)) = some (19, [0x79], []) ∧
    ((started ((p 0xF023).keyArrives 0x79)).react (.cut 20)).map
      (fun z => (z.core.out.length, z.core.kbd, z.taken)) = some (19, [], [(1, 0x79)]) ∧
    ((started ((p 0xF023).keyArrives 0x79)).react (.cut 21)).map (fun z => z.core.out[19]?) =
      some (some (.put 0x79)) := by decide

end Sys2Proof.Tests
end

section
namespace Sys2Proof.Machine

/-! ### Sign extension (00_scope.md R8) -/

/-- R8's definition of `sext_N`, for every field that fits a word. -/
theorem sext_eq_ite {n : Nat} (hn : n ≤ 16) (f : BitVec n) :
    sext f =
      if f.getLsbD (n - 1) then BitVec.ofNat 16 (f.toNat + (65536 - 2 ^ n)) else BitVec.ofNat 16 f.toNat := by
  have hsext : sext f = BitVec.ofNat 16 (f.toNat + if f.msb then 2 ^ 16 - 2 ^ n else 0) := by
    apply BitVec.eq_of_toNat_eq
    rw [← Nat.mod_eq_of_lt (sext f).isLt, sext, BitVec.toNat_signExtend, BitVec.toNat_setWidth_of_le hn,
      BitVec.toNat_ofNat]
  rw [hsext, BitVec.msb_eq_getLsbD_last]
  split <;> rfl

/-- A field that fits a word keeps its two's-complement value under sign extension. -/
theorem toInt_sext {n : Nat} (hn : n ≤ 16) (f : BitVec n) : (sext f).toInt = f.toInt :=
  BitVec.toInt_signExtend_of_le hn

/-- Settles O6: each clause is the general fact at one width. -/
theorem signExtensionKeepsTheSignedValue : Obligations.SignExtensionKeepsTheSignedValue :=
  ⟨sext_eq_ite (by decide), sext_eq_ite (by decide), sext_eq_ite (by decide), sext_eq_ite (by decide),
    fun v k hk => toInt_sext hk (v.extractLsb' 0 k)⟩

end Sys2Proof.Machine
end

section
/-! What the instructions and the service calls can do, said once: inversion lemmas for `exec` and for a TRAP step that goes
on, by which the statements about the state (spec 10_state.md) are proved. -/

namespace Sys2Proof.Machine

/-! ### Reads in sequence (20_memory.md R71, R85) -/

/-- The state after reads through the mapped-I/O policy at these addresses, one after another (20 R85). -/
def State.afterReads (s : State) (as : List Word) : State := as.foldl State.readEffect s

@[simp] theorem State.afterReads_nil (s : State) : s.afterReads [] = s := rfl
@[simp] theorem State.afterReads_cons (s : State) (a : Word) (as : List Word) :
    s.afterReads (a :: as) = (s.readEffect a).afterReads as := rfl

/-- What one read keeps, any sequence of reads keeps. -/
theorem State.afterReads_keeps {α : Type} {f : State → α} (hf : ∀ s a, f (s.readEffect a) = f s) (s : State)
    (as : List Word) : f (s.afterReads as) = f s := by
  induction as generalizing s with
  | nil => rfl
  | cons a as ih => rw [State.afterReads_cons, ih, hf]

@[simp] theorem State.afterReads_pc (s : State) (as : List Word) : (s.afterReads as).pc = s.pc :=
  State.afterReads_keeps State.readEffect_pc s as
@[simp] theorem State.afterReads_cond (s : State) (as : List Word) : (s.afterReads as).cond = s.cond :=
  State.afterReads_keeps State.readEffect_cond s as
@[simp] theorem State.afterReads_rs (s : State) (as : List Word) : (s.afterReads as).rs = s.rs :=
  State.afterReads_keeps State.readEffect_rs s as
@[simp] theorem State.afterReads_activity (s : State) (as : List Word) : (s.afterReads as).activity = s.activity :=
  State.afterReads_keeps State.readEffect_activity s as
@[simp] theorem State.afterReads_reg (s : State) (as : List Word) (k : Reg) : (s.afterReads as).reg k = s.reg k :=
  State.afterReads_keeps (f := fun s => s.reg k) (fun s a => s.readEffect_reg a k) s as

/-- Reads keep the canonical form. -/
theorem State.afterReads_wf {s : State} (as : List Word) (hm : s.mem.wf = true) : (s.afterReads as).mem.wf = true := by
  induction as generalizing s with
  | nil => exact hm
  | cons a as ih => exact ih (State.readEffect_wf a hm)

/-! ### The fetch and the decoder (40_cycle.md R131; 30_encoding.md R113) -/

/-- The fetch leaves RS. -/
@[simp] theorem State.afterFetch_rs (s : State) : s.afterFetch.rs = s.rs := by
  rw [State.afterFetch_eq, State.setPc_rs, State.readEffect_rs]

/-- The fetch leaves the call in progress. -/
@[simp] theorem State.afterFetch_activity (s : State) : s.afterFetch.activity = s.activity := by
  rw [State.afterFetch_eq, State.setPc_activity, State.readEffect_activity]

/-- A vector's row is well-formed: the generic row has no service's vector (30_encoding.md R109). -/
theorem decodeTrap_wf (v : Byte) : (decodeTrap v).wf = true := by
  rcases hv : isServiceVector v
  · rw [decodeTrap_of_not_service hv, Instr.wf, hv]
    rfl
  · simp only [isServiceVector, Bool.or_eq_true, beq_iff_eq] at hv
    rcases hv with ((((rfl | rfl) | rfl) | rfl) | rfl) | rfl <;> rfl

/-- Every word decodes to a well-formed instruction (30 R113). -/
theorem decode_wf (w : Word) : (decode w).wf = true := by
  rcases ho : opcodeOf (fieldOpcode w) <;> simp only [decode, ho]
  case add | and | jsr => split <;> rfl
  case trap => exact decodeTrap_wf _
  all_goals rfl

/-- No word decodes to the generic TRAP with HALT's vector. -/
theorem decode_ne_trap_halt (w : Word) : decode w ≠ .trap params.tvHalt := fun h => by
  have hw := decode_wf w
  rw [h] at hw
  exact absurd hw (by decide)

/-! ### Service calls (45_trap.md) -/

/-- No output event leaves the record as it was. -/
theorem State.emit_nil (s : State) : s.emit [] = s := by simp [State.emit]

/-- Naming the call that is in progress anyway changes nothing. -/
theorem State.setActivity_self {s : State} {a : Activity} (h : s.activity = a) : s.setActivity a = s := by
  subst h; rfl

/-- Two sequences of output events are one. -/
theorem State.emit_emit (s : State) (es fs : List ConEvent) : (s.emit es).emit fs = s.emit (es ++ fs) := by
  simp [State.emit]

/-- What a call that waits for a character leaves: it may have sent events `es`, and either no character was pending and the
call is held in `a`, or the first one was taken to R0 with its flags and the call is complete (45 R181, R184). -/
inductive AwaitEffect (s : State) : State → Prop where
  | holds (a : Activity) (es : List ConEvent) (hk : s.kbd = []) : AwaitEffect s ((s.emit es).setActivity a)
  | takes (c : Byte) (q : List Byte) (es : List ConEvent) (hk : s.kbd = c :: q) :
    AwaitEffect s (((((s.emit es).setKbd q).setActivity .idle).setReg 0#3 (zextChar c)).setcc (zextChar c))

/-- Events sent before the wait are events of the call. -/
theorem AwaitEffect.of_emit {s t : State} {es : List ConEvent} (h : AwaitEffect (s.emit es) t) : AwaitEffect s t := by
  cases h with
  | holds a fs hk => rw [State.emit_emit]; exact .holds a _ hk
  | takes c q fs hk => rw [State.emit_emit]; exact .takes c q _ hk

theorem State.awaitGetc_effect (s : State) : AwaitEffect s s.awaitGetc := by
  rcases s.awaitGetc_cases with ⟨hk, h⟩ | ⟨c, q, hk, h⟩ <;> rw [h]
  · simpa only [State.emit_nil] using AwaitEffect.holds .getc [] hk
  · simpa only [State.emit_nil] using AwaitEffect.takes c q [] hk

theorem State.awaitInput_effect (s : State) : AwaitEffect s s.awaitInput := by
  rcases s.awaitInput_cases with ⟨hk, h⟩ | ⟨c, q, hk, h⟩ <;> rw [h]
  · simpa only [State.emit_nil] using AwaitEffect.holds .input [] hk
  · have echo := AwaitEffect.takes c q ([.put c] ++ [.flush]) hk
    rw [← State.emit_emit] at echo
    exact echo

theorem State.serviceIn_effect (s : State) : AwaitEffect s s.serviceIn := (State.awaitInput_effect _).of_emit

/-- Bytes and a flush after them are one sequence of events. -/
theorem State.flush_putBytes (s : State) (bs : List Byte) :
    (s.putBytes bs).flush = s.emit (putEvents bs ++ [.flush]) :=
  s.emit_emit _ _

/-- OUT sends events and keeps what is in progress (45 R182). -/
theorem State.serviceOut_effect (s : State) : ∃ a es, s.serviceOut = (s.emit es).setActivity a :=
  ⟨s.activity, _, s.flush_putBytes _⟩

/-- PUTS sends events and then is complete or still in progress (45 R183). -/
theorem State.servicePuts_effect (s : State) : ∃ a es, s.servicePuts = (s.emit es).setActivity a := by
  obtain ⟨ws, ⟨-, h⟩ | ⟨-, h⟩⟩ := s.servicePuts_cases
  · exact ⟨.idle, putEvents (ws.flatMap putsBytes) ++ [.flush], by rw [h, State.flush_putBytes]⟩
  · exact ⟨.puts, putEvents (ws.flatMap putsBytes), h⟩

/-- PUTSP sends events and then is complete or still in progress (45 R185). -/
theorem State.servicePutsp_effect (s : State) : ∃ a es, s.servicePutsp = (s.emit es).setActivity a := by
  obtain ⟨ws, ⟨-, h⟩ | ⟨-, h⟩⟩ := s.servicePutsp_cases
  · exact ⟨.idle, putEvents (ws.flatMap putspBytes) ++ [.flush], by rw [h, State.flush_putBytes]⟩
  · exact ⟨.putsp, putEvents (ws.flatMap putspBytes), h⟩

/-- What a TRAP step that goes on can do (15_interfaces.md R53; 40_cycle.md R135): a held GETC or IN waits for its character
again, and every other step sends events only. -/
theorem State.resumeService_cases (s : State) :
    ((s.activity = .getc ∨ s.activity = .input) ∧ AwaitEffect s s.resumeService) ∨
      (¬ (s.activity = .getc ∨ s.activity = .input) ∧ ∃ a es, s.resumeService = (s.emit es).setActivity a) := by
  unfold State.resumeService
  rcases h : s.activity
  case getc => exact .inl ⟨.inl rfl, s.awaitGetc_effect⟩
  case input => exact .inl ⟨.inr rfl, s.awaitInput_effect⟩
  case idle => exact .inr ⟨by decide, .idle, [], by rw [State.emit_nil, State.setActivity_self h]⟩
  case puts => exact .inr ⟨by decide, s.servicePuts_effect⟩
  case putsp => exact .inr ⟨by decide, s.servicePutsp_effect⟩

/-! ### Instructions -/

/-- What an instruction can do to the state, by kind, with what the kind says of the instruction. A read goes through the
mapped-I/O policy first, at the addresses `readAddresses` names (20 R85). -/
inductive ExecEffect (i : Instr) (s : State) : State → Prop where
  /-- ADD, AND, NOT and the loads: a value to DR, with its flags. -/
  | result (dr : Reg) (v : Word) (hf : flagRegister i = some dr) (hw : writtenRegisters i = [dr])
    (ho : i.opcode ≠ .trap) : ExecEffect i s ((s.afterReads (readAddresses i s)).writeResult dr v)
  /-- The stores: a value to a cell. -/
  | store (ea v : Word) (hf : flagRegister i = none) (ha : storeAddress i s = some ea) :
    ExecEffect i s ((s.afterReads (readAddresses i s)).memWrite ea v)
  /-- BR, taken or not, and JMP. -/
  | jump (v : Word) (hf : flagRegister i = none) (ho : i.opcode = .br ∨ i.opcode = .jmp) : ExecEffect i s (s.setPc v)
  /-- JSR and JSRR: the return address to R7, and the transfer. -/
  | call (v : Word) (hf : flagRegister i = none) (hw : writtenRegisters i = [7#3]) (ho : i.opcode = .jsr) :
    ExecEffect i s ((s.setReg 7#3 s.pc).setPc v)
  /-- The reserved opcodes. -/
  | reserved (hf : flagRegister i = none) (hi : i = .rti ∨ i = .res) : ExecEffect i s s.raiseDecodeFault
  /-- GETC and IN. -/
  | await (t : State) (hf : flagRegister i = some 0#3) (hw : writtenRegisters i = [7#3, 0#3]) (ho : i.opcode = .trap)
    (ht : AwaitEffect s.enterTrap t) : ExecEffect i s t
  /-- OUT, PUTS, PUTSP, and a vector without a service. -/
  | send (t : State) (hf : flagRegister i = none) (hw : writtenRegisters i = [7#3]) (ho : i.opcode = .trap)
    (ht : ∃ a es, t = (s.enterTrap.emit es).setActivity a) : ExecEffect i s t
  /-- HALT. -/
  | halt (es : List ConEvent) (hf : flagRegister i = none) (hw : writtenRegisters i = [7#3])
    (hi : i = .halt ∨ i = .trap params.tvHalt) : ExecEffect i s ((s.enterTrap.emit es).setRs .halted)

/-- A TRAP with any vector does what one of the kinds does (45 R180, R187). -/
theorem execTrap_effect (v : Byte) (s : State) : ExecEffect (.trap v) s (s.enterTrap.dispatchService v) := by
  rcases s.enterTrap.dispatchService_cases v with
    ⟨rfl, h⟩ | ⟨rfl, h⟩ | ⟨rfl, h⟩ | ⟨rfl, h⟩ | ⟨rfl, h⟩ | ⟨rfl, h⟩ | ⟨hv, h⟩ <;> rw [h]
  · exact .await _ rfl rfl rfl (State.awaitGetc_effect _)
  · exact .send _ rfl rfl rfl (State.serviceOut_effect _)
  · exact .send _ rfl rfl rfl (State.servicePuts_effect _)
  · exact .await _ rfl rfl rfl (State.serviceIn_effect _)
  · exact .send _ rfl rfl rfl (State.servicePutsp_effect _)
  · rw [State.serviceHalt, State.flush_putBytes]
    exact .halt _ rfl rfl (.inr rfl)
  · have hne : ¬ (v = params.tvGetc ∨ v = params.tvIn) := by
      rintro (rfl | rfl) <;> exact absurd hv (by decide)
    exact .send _ (if_neg hne) (if_neg hne) rfl ⟨s.enterTrap.activity, [], by rw [State.emit_nil]; rfl⟩

/-- What an instruction answers is a next state that one of the kinds gives. -/
theorem exec_effect {i : Instr} {s t : State} (h : exec i s = .next t) : ExecEffect i s t := by
  cases i <;> obtain rfl := Host.Outcome.next.inj h
  case br n z p off =>
    split
    · exact .jump _ rfl (.inl rfl)
    · exact .jump s.pc rfl (.inl rfl)
  case addReg dr _ _ | addImm dr _ _ | andReg dr _ _ | andImm dr _ _ | not dr _ | lea dr _ | ld dr _ | ldi dr _ |
      ldr dr _ _ => exact .result dr _ rfl rfl nofun
  case st | sti | str => exact .store _ _ rfl rfl
  case jmp => exact .jump _ rfl (.inr rfl)
  case jsr | jsrr => exact .call _ rfl rfl rfl
  case rti => exact .reserved rfl (.inl rfl)
  case res => exact .reserved rfl (.inr rfl)
  case trap v => exact execTrap_effect v s
  case getc => exact .await _ rfl rfl rfl (State.awaitGetc_effect _)
  case inp => exact .await _ rfl rfl rfl (State.serviceIn_effect _)
  case out => exact .send _ rfl rfl rfl (State.serviceOut_effect _)
  case puts => exact .send _ rfl rfl rfl (State.servicePuts_effect _)
  case putsp => exact .send _ rfl rfl rfl (State.servicePutsp_effect _)
  case halt =>
    rw [State.serviceHalt, State.flush_putBytes]
    exact .halt _ rfl rfl (.inl rfl)

end Sys2Proof.Machine
end

section
/-! The statements about the state (spec 10_state.md), by what instructions and service calls can do. -/

namespace Sys2Proof.Machine

/-! ### Registers (10_state.md R21, R22) -/

/-- Settles O7: no register is hardwired, and a register write is a write of the register file only. -/
theorem registerWriteChangesOneRegister : Obligations.RegisterWriteChangesOneRegister := fun s r v =>
  ⟨s.reg_setReg_same r v, fun _ hk => s.reg_setReg_ne v (by simpa using hk), rfl, rfl, fun _ _ => rfl, ⟨rfl, rfl⟩,
    rfl, rfl⟩

/-- A call that waits for a character writes no register but R0 (45 R181, R184). -/
theorem AwaitEffect.sameRegs {s t : State} (h : AwaitEffect s t) : SameRegsExcept [0#3] s t := by
  intro r hr
  cases h with
  | holds a es hk => rfl
  | takes c q es hk =>
    have hr0 : r ≠ 0#3 := by simpa using hr
    simp [hr0]

/-- Settles O45: each kind of effect writes the registers the list names. -/
theorem registersChangeOnlyAsListed : Obligations.RegistersChangeOnlyAsListed := by
  intro i s t h r hr
  cases exec_effect h with
  | result dr v hf hw ho =>
    have hdr : r ≠ dr := by simpa [hw] using hr
    simp [hdr]
  | store ea v hf ha => simp
  | jump v hf ho => rfl
  | call v hf hw ho =>
    have h7 : r ≠ 7#3 := by simpa [hw] using hr
    simp [h7]
  | reserved hf hi => rfl
  | await t hf hw ho ht =>
    obtain ⟨h7, h0⟩ : r ≠ 7#3 ∧ r ≠ 0#3 := by simpa [hw] using hr
    rw [ht.sameRegs r (by simpa using h0), State.enterTrap_reg, if_neg h7]
  | send t hf hw ho ht =>
    obtain ⟨a, es, rfl⟩ := ht
    have h7 : r ≠ 7#3 := by simpa [hw] using hr
    simp [h7]
  | halt es hf hw hi =>
    have h7 : r ≠ 7#3 := by simpa [hw] using hr
    simp [h7]

/-! ### The program counter (10 R25) -/

/-- A base plus a sign-extended offset is the sum of the numbers, modulo 65536 (20_memory.md R90). -/
theorem add_sext {n : Nat} (base : Word) (off : BitVec n) : base + sext off = wordPlus base off.toInt := by
  simp [sext, wordPlus, BitVec.signExtend, BitVec.ofInt_add]

/-- A call that waits for a character leaves pc. -/
theorem AwaitEffect.pc_eq {s t : State} (h : AwaitEffect s t) : t.pc = s.pc := by cases h <;> rfl

/-- Only the opcodes BR, JMP and JSR write pc. -/
theorem exec_pc_of_not_transfer {i : Instr} {s t : State} (hi : i.opcode ≠ .br ∧ i.opcode ≠ .jmp ∧ i.opcode ≠ .jsr)
    (h : exec i s = .next t) : t.pc = s.pc := by
  obtain ⟨hbr, hjmp, hjsr⟩ := hi
  cases exec_effect h with
  | result dr v hf hw ho => simp
  | store ea v hf ha => simp
  | jump v hf ho => exact absurd ho (by simp [hbr, hjmp])
  | call v hf hw ho => exact absurd ho hjsr
  | reserved hf hi => rfl
  | await t hf hw ho ht => exact ht.pc_eq
  | send t hf hw ho ht => obtain ⟨a, es, rfl⟩ := ht; rfl
  | halt es hf hw hi => rfl

/-- A TRAP step that goes on leaves pc. -/
theorem State.resumeService_pc (s : State) : s.resumeService.pc = s.pc := by
  rcases s.resumeService_cases with ⟨-, h⟩ | ⟨-, a, es, h⟩
  · exact h.pc_eq
  · rw [h]; rfl

/-- BR goes to its target if the branch is taken, and else stays (42_control.md R150). -/
theorem execBr_pc {n z p : Bool} {off : BitVec 9} {s t : State} (h : exec (.br n z p off) s = .next t) :
    t.pc = if branchTaken n z p s.cond then wordPlus s.pc off.toInt else s.pc := by
  obtain rfl := Host.Outcome.next.inj h
  rw [apply_ite State.pc, State.setPc_pc, State.pcRel9, add_sext]

/-- Settles O19: the four transfers give pc as their rules say, and every other kind of effect keeps it. -/
theorem pcIsWrittenByExactlyTheTransfers : Obligations.PcIsWrittenByExactlyTheTransfers := by
  refine ⟨fun s => ⟨rfl, fun h => ?_⟩, fun _ _ _ _ _ _ => execBr_pc, fun base s t h => ?_, fun off s t h => ?_,
    fun base s t h => ?_, fun _ _ _ => exec_pc_of_not_transfer, State.resumeService_pc⟩
  · rw [State.afterFetch_eq, State.setPc_pc, h]
    decide
  all_goals obtain rfl := Host.Outcome.next.inj h
  · rfl
  · rw [State.setPc_pc, State.pcRel11, add_sext]
  · rw [State.setPc_pc, State.reg_setReg]

/-! ### The flags (10 R28, R29) -/

/-- `setcc` says of a value what its two's-complement number is (10 R28). -/
theorem flagsFor_condOf (v : Word) : FlagsFor v (condOf v) := by
  have hmsb : v.getLsbD 15 = v.msb := (BitVec.msb_eq_getLsbD_last v).symm
  rcases condOf_cases v with ⟨h0, h⟩ | ⟨h0, h15, h⟩ | ⟨h0, h15, h⟩
  · exact .inl ⟨by rw [h0]; rfl, h⟩
  · exact .inr (.inl ⟨BitVec.toInt_neg_of_msb_true (hmsb ▸ h15), h⟩)
  · have hnonneg : 0 ≤ v.toInt := BitVec.toInt_nonneg_of_msb_false (hmsb ▸ h15)
    have hne : v.toInt ≠ 0 := fun e => h0 (BitVec.eq_of_toInt_eq e)
    exact .inr (.inr ⟨by omega, h⟩)

/-- A call that waits leaves COND while it is held (45 R181, R184). -/
theorem AwaitEffect.cond_of_nil {s t : State} (h : AwaitEffect s t) (hk : s.kbd = []) : t.cond = s.cond := by
  cases h with
  | holds a es _ => rfl
  | takes c q es hk' => exact absurd (hk.symm.trans hk') nofun

/-- A call that takes its character sets COND from R0's new content (45 R181, R184). -/
theorem AwaitEffect.cond_of_ne_nil {s t : State} (h : AwaitEffect s t) (hk : s.kbd ≠ []) :
    t.cond = condOf (t.reg 0#3) := by
  cases h with
  | holds a es hk' => exact absurd hk' hk
  | takes c q es _ => simp

/-- An instruction without a flag register leaves COND. -/
theorem exec_cond_of_no_flagRegister {i : Instr} {s t : State} (hf : flagRegister i = none) (h : exec i s = .next t) :
    t.cond = s.cond := by
  cases exec_effect h with
  | result dr v hf' hw ho => exact absurd (hf.symm.trans hf') nofun
  | store ea v hf' ha => simp
  | jump v hf' ho => rfl
  | call v hf' hw ho => rfl
  | reserved hf hi => rfl
  | await t hf' hw ho ht => exact absurd (hf.symm.trans hf') nofun
  | send t hf' hw ho ht => obtain ⟨a, es, rfl⟩ := ht; rfl
  | halt es hf hw hi => rfl

/-- A GETC or IN that holds leaves COND. -/
theorem exec_cond_of_held {i : Instr} {s t : State} (hi : i.opcode = .trap) (hk : s.kbd = []) (h : exec i s = .next t) :
    t.cond = s.cond := by
  rcases hf : flagRegister i with - | r
  · exact exec_cond_of_no_flagRegister hf h
  · cases exec_effect h with
    | result dr v _ hw ho => exact absurd hi ho
    | await t _ hw ho ht => exact ht.cond_of_nil hk
    | store ea v hf' | jump v hf' | call v hf' | send t hf' | reserved hf' | halt es hf' =>
      exact absurd (hf.symm.trans hf') nofun

/-- An instruction with a flag register, unless it holds, leaves COND at `setcc` of that register's new content. -/
theorem exec_cond_of_flagRegister {i : Instr} {s t : State} {r : Reg} (hf : flagRegister i = some r)
    (hk : i.opcode = .trap → s.kbd ≠ []) (h : exec i s = .next t) : t.cond = condOf (t.reg r) := by
  cases exec_effect h with
  | result dr v hf' hw ho =>
    obtain rfl : r = dr := Option.some.inj (hf.symm.trans hf')
    simp
  | await t hf' hw ho ht =>
    obtain rfl : r = 0#3 := Option.some.inj (hf.symm.trans hf')
    exact ht.cond_of_ne_nil (hk ho)
  | store ea v hf' | jump v hf' | call v hf' | send t hf' | reserved hf' | halt es hf' =>
    exact absurd (hf.symm.trans hf') nofun

/-- The flag register is one that the instruction writes. -/
theorem mem_writtenRegisters_of_flagRegister {i : Instr} {r : Reg} (h : flagRegister i = some r) :
    r ∈ writtenRegisters i := by
  cases i
  case trap v =>
    by_cases hv : v = params.tvGetc ∨ v = params.tvIn <;> simp_all [flagRegister, writtenRegisters]
  all_goals simp_all [flagRegister, writtenRegisters]

/-- Settles O8: `setcc` writes COND only, and a flag setter ends with it. -/
theorem setccFollowsTheWrittenValue : Obligations.SetccFollowsTheWrittenValue :=
  ⟨fun _ _ => ⟨rfl, fun _ _ => rfl, rfl, fun _ _ => rfl, ⟨rfl, rfl⟩, rfl, rfl⟩,
    fun _ _ _ _ hf hk h => ⟨mem_writtenRegisters_of_flagRegister hf, exec_cond_of_flagRegister hf hk h⟩⟩

/-- A held GETC or IN that goes on with a character pending ends with R0's flags. -/
theorem State.resumeService_flags {s : State} (ha : s.activity = .getc ∨ s.activity = .input) (hk : s.kbd ≠ []) :
    FlagsFor (s.resumeService.reg 0#3) s.resumeService.cond := by
  rcases s.resumeService_cases with ⟨-, h⟩ | ⟨hna, -⟩
  · rw [h.cond_of_ne_nil hk]
    exact flagsFor_condOf _
  · exact absurd ha hna

/-- Every other TRAP step that goes on leaves COND. -/
theorem State.resumeService_cond {s : State} (h : ¬ ((s.activity = .getc ∨ s.activity = .input) ∧ s.kbd ≠ [])) :
    s.resumeService.cond = s.cond := by
  rcases s.resumeService_cases with ⟨ha, ht⟩ | ⟨-, a, es, ht⟩
  · exact ht.cond_of_nil (by simpa [ha] using h)
  · rw [ht]; rfl

/-! ### What COND is read by: an operation that does not read it commutes with a write of it -/

/-- The last write of COND counts. -/
@[simp] theorem State.setCond_setCond (s : State) (c d : Word) : (s.setCond c).setCond d = s.setCond d := rfl

@[simp] theorem State.pollKeyboard_setCond (s : State) (c : Word) :
    (s.setCond c).pollKeyboard = s.pollKeyboard.setCond c := by
  rcases hk : s.kbd with - | ⟨b, q⟩ <;> simp only [State.pollKeyboard, State.setCond_kbd, hk] <;> rfl

@[simp] theorem State.readEffect_setCond (s : State) (c a : Word) :
    (s.setCond c).readEffect a = (s.readEffect a).setCond c := by
  rcases s.readEffect_cases a with ⟨ha, h⟩ | ⟨rfl, h⟩ <;> rw [h]
  · exact State.readEffect_of_ne ha
  · rw [State.readEffect_kbsr, State.pollKeyboard_setCond]

@[simp] theorem State.memRead_setCond (s : State) (c a : Word) :
    (s.setCond c).memRead a = ((s.memRead a).1, (s.memRead a).2.setCond c) := by
  simp [State.memRead_eq]

/-- A load overwrites COND without reading it. -/
@[simp] theorem State.loadFrom_setCond (s : State) (c : Word) (dr : Reg) (ea : Word) :
    (s.setCond c).loadFrom dr ea = s.loadFrom dr ea := by
  simp only [State.loadFrom, State.memRead_setCond]
  rfl

theorem State.awaitGetc_setCond (s : State) (c : Word) : (s.setCond c).awaitGetc.setCond c = s.awaitGetc.setCond c := by
  rcases hk : s.kbd with - | ⟨b, q⟩ <;> simp only [State.awaitGetc, State.setCond_kbd, hk] <;> rfl

theorem State.awaitInput_setCond (s : State) (c : Word) :
    (s.setCond c).awaitInput.setCond c = s.awaitInput.setCond c := by
  rcases hk : s.kbd with - | ⟨b, q⟩ <;> simp only [State.awaitInput, State.setCond_kbd, hk] <;> rfl

theorem State.servicePuts_setCond (s : State) (c : Word) : (s.setCond c).servicePuts = s.servicePuts.setCond c := by
  rcases hr : s.mem.scanString memCells (s.reg 0#3) with ⟨ws, _ | _⟩ <;>
    simp only [State.servicePuts, State.setCond_mem, State.setCond_reg, hr] <;> rfl

theorem State.servicePutsp_setCond (s : State) (c : Word) : (s.setCond c).servicePutsp = s.servicePutsp.setCond c := by
  rcases hr : s.mem.scanString memCells (s.reg 0#3) with ⟨ws, _ | _⟩ <;>
    simp only [State.servicePutsp, State.setCond_mem, State.setCond_reg, hr] <;> rfl

/-- No service call reads COND. -/
theorem State.dispatchService_setCond (s : State) (c : Word) (v : Byte) :
    ((s.setCond c).dispatchService v).setCond c = (s.dispatchService v).setCond c := by
  unfold State.dispatchService
  split_ifs
  · exact s.awaitGetc_setCond c
  · rfl
  · rw [State.servicePuts_setCond, State.setCond_setCond]
  · exact (s.putBytes params.inPrompt).awaitInput_setCond c
  · rw [State.servicePutsp_setCond, State.setCond_setCond]
  · rfl
  · rfl

/-- Every instruction but BR does the same, whatever COND is (10 R29). The row of a service means what TRAP with its vector
means. -/
theorem exec_setCond {i : Instr} (hi : i.opcode ≠ .br) (s : State) (c : Word) :
    ∃ t t', exec i s = .next t ∧ exec i (s.setCond c) = .next t' ∧ t'.setCond c = t.setCond c := by
  have trap (v : Byte) : ∃ t t', exec (.trap v) s = .next t ∧ exec (.trap v) (s.setCond c) = .next t' ∧
      t'.setCond c = t.setCond c := ⟨_, _, rfl, rfl, s.enterTrap.dispatchService_setCond c v⟩
  cases i
  case br n z p off => exact absurd rfl hi
  case trap v => exact trap v
  case getc => exact trap params.tvGetc
  case out => exact trap params.tvOut
  case puts => exact trap params.tvPuts
  case inp => exact trap params.tvIn
  case putsp => exact trap params.tvPutsp
  case halt => exact trap params.tvHalt
  case ld dr off => exact ⟨_, _, rfl, rfl, congrArg (State.setCond · c) (s.loadFrom_setCond c dr _)⟩
  case ldr dr base off => exact ⟨_, _, rfl, rfl, congrArg (State.setCond · c) (s.loadFrom_setCond c dr _)⟩
  case ldi dr off =>
    refine ⟨_, _, rfl, rfl, ?_⟩
    rw [State.indirect, State.memRead_setCond, State.loadFrom_setCond]
    rfl
  case sti sr off =>
    refine ⟨_, _, rfl, rfl, ?_⟩
    rw [State.indirect, State.memRead_setCond]
    rfl
  all_goals exact ⟨_, _, rfl, rfl, rfl⟩

/-- BR reads COND: with mask z it is taken after ZERO and not after POSITIVE. -/
theorem execBr_reads_cond : ∃ (n z p : Bool) (off : BitVec 9) (s t t' : State) (c : Word),
    exec (.br n z p off) s = .next t ∧ exec (.br n z p off) (s.setCond c) = .next t' ∧ t'.pc ≠ t.pc :=
  ⟨false, true, false, 1, State.reset, _, _, params.flPos, rfl, rfl, by decide⟩

/-- Settles O9: who writes COND, from the kinds of effects; who reads it, from what commutes with a write of it. -/
theorem condIsWrittenByExactlyTheFlagSetters : Obligations.CondIsWrittenByExactlyTheFlagSetters := by
  refine ⟨fun i s t h => ⟨fun hf => exec_cond_of_no_flagRegister hf h, fun r hf => ⟨fun hh => ?_, fun hn => ?_⟩⟩,
    fun i s c hi => exec_setCond hi s c, execBr_reads_cond,
    fun s => ⟨fun ⟨ha, hk⟩ => s.resumeService_flags ha hk, s.resumeService_cond⟩⟩
  · exact exec_cond_of_held hh.1 hh.2 h
  · rw [exec_cond_of_flagRegister hf (fun ho hk => hn ⟨ho, hk⟩) h]
    exact flagsFor_condOf _

/-! ### The run state (10 R31) -/

/-- A call that waits for a character leaves RS. -/
theorem AwaitEffect.rs_eq {s t : State} (h : AwaitEffect s t) : t.rs = s.rs := by cases h <;> rfl

/-- An instruction leaves RS, or it is HALT or a reserved one, and then leaves the call in progress as it was. -/
theorem exec_rs {i : Instr} {s t : State} (h : exec i s = .next t) :
    t.rs = s.rs ∨
      (t.activity = s.activity ∧ ((t.rs = .halted ∧ (i = .halt ∨ i = .trap params.tvHalt)) ∨
        (t.rs = .faulted ∧ (i = .rti ∨ i = .res)))) := by
  cases exec_effect h with
  | result dr v hf hw ho => exact .inl (by simp)
  | store ea v hf ha => exact .inl (by simp)
  | jump v hf ho => exact .inl rfl
  | call v hf hw ho => exact .inl rfl
  | reserved hf hi => exact .inr ⟨rfl, .inr ⟨rfl, hi⟩⟩
  | await t hf hw ho ht => exact .inl ht.rs_eq
  | send t hf hw ho ht => obtain ⟨a, es, rfl⟩ := ht; exact .inl rfl
  | halt es hf hw hi => exact .inr ⟨rfl, .inl ⟨rfl, hi⟩⟩

/-- A TRAP step that goes on leaves RS. -/
theorem State.resumeService_rs (s : State) : s.resumeService.rs = s.rs := by
  rcases s.resumeService_cases with ⟨-, h⟩ | ⟨-, a, es, h⟩
  · exact h.rs_eq
  · rw [h]; rfl

/-- A step that answers a next state keeps RS, but for HALT and the reserved opcodes. -/
theorem step_rs {s t : State} (h : step s = .next t) :
    t.rs = s.rs ∨
      (s.rs = .running ∧ s.activity = .idle ∧ t.rs = .halted ∧ decode s.fetchedWord = .halt) ∨
      (s.rs = .running ∧ s.activity = .idle ∧ t.rs = .faulted ∧
        (decode s.fetchedWord = .rti ∨ decode s.fetchedWord = .res)) := by
  rcases step_cases s with ⟨hr, ha, hs⟩ | ⟨hr, ha, hs⟩ | ⟨hr, hs⟩ | ⟨hr, hs⟩ <;> rw [hs] at h
  · rcases exec_rs h with ht | ⟨-, ⟨ht, hi⟩ | ⟨ht, hi⟩⟩
    · exact .inl (ht.trans s.afterFetch_rs)
    · exact .inr (.inl ⟨hr, ha, ht, hi.resolve_right (decode_ne_trap_halt _)⟩)
    · exact .inr (.inr ⟨hr, ha, ht, hi⟩)
  · obtain rfl := Host.Outcome.next.inj h
    exact .inl s.resumeService_rs
  · obtain rfl := Host.Outcome.next.inj h
    exact .inl rfl
  · cases h

/-- A step that fetches HALT halts (45 R186). -/
theorem step_halts {s : State} (hr : s.rs = .running) (ha : s.activity = .idle) (hi : decode s.fetchedWord = .halt) :
    ∃ t, step s = .next t ∧ t.rs = .halted := by
  refine ⟨s.afterFetch.enterTrap.serviceHalt, ?_, rfl⟩
  rw [step, if_pos (s.canFetch_iff.2 ⟨hr, ha⟩), hi]
  rfl

/-- Of the events of the system, only a step of a RUNNING core and a reset change RS (15_interfaces.md R55). -/
theorem System.react_rs {y z : System} {e : HostEvent} (h : y.react e = some z) :
    z.core.rs = y.core.rs ∨ (e = .step ∧ y.core.rs = .running) ∨ ∃ n, e = .reset n := by
  rcases System.react_cases h with ⟨n, he, -⟩ | ⟨a, v, -, -, rfl⟩ | ⟨-, -, rfl⟩ | ⟨c, -, rfl⟩ | ⟨t, he, -, hr, -, -⟩ |
    ⟨n, -, -, rfl⟩
  · exact .inr (.inr ⟨n, he⟩)
  · exact .inl rfl
  · exact .inl rfl
  · exact .inl rfl
  · exact .inr (.inl ⟨he, hr⟩)
  · obtain ⟨k, es, hk⟩ := y.stoppedAt_cases n
    exact .inl (by simp [hk])

/-- Settles O44: by what a step and what an event do to RS. -/
theorem runStateTransitions : Obligations.RunStateTransitions := by
  refine ⟨fun _ _ => step_rs, fun _ => step_halts, fun _ _ _ => System.react_rs, fun y z n h => ?_⟩
  obtain rfl := Option.some.inj h
  rfl

/-! ### The invariant (10 R27; 40_cycle.md R135) -/

/-- A call that waits for a character leaves the memory. -/
theorem AwaitEffect.mem_eq {s t : State} (h : AwaitEffect s t) : t.mem = s.mem := by cases h <;> rfl

/-- An instruction keeps the canonical form. -/
theorem exec_wf {i : Instr} {s t : State} (hm : s.mem.wf = true) (h : exec i s = .next t) : t.mem.wf = true := by
  cases exec_effect h with
  | result dr v hf hw ho => exact State.afterReads_wf _ hm
  | store ea v hf ha => exact State.setCell_wf ea v (State.afterReads_wf _ hm)
  | jump | call | reserved | halt => exact hm
  | await t hf hw ho ht => exact ht.mem_eq ▸ hm
  | send t hf hw ho ht => obtain ⟨a, es, rfl⟩ := ht; exact hm

/-- Whether COND is legal is a matter of COND alone. -/
theorem State.condLegal_congr {s t : State} (h : t.cond = s.cond) (hc : s.condLegal = true) : t.condLegal = true := by
  rwa [State.condLegal, h]

/-- An instruction keeps COND legal: it leaves it, or ends with `setcc`. -/
theorem exec_condLegal {i : Instr} {s t : State} (hc : s.condLegal = true) (h : exec i s = .next t) :
    t.condLegal = true := by
  rcases hf : flagRegister i with - | r
  · exact State.condLegal_congr (exec_cond_of_no_flagRegister hf h) hc
  · by_cases hk : i.opcode = .trap ∧ s.kbd = []
    · exact State.condLegal_congr (exec_cond_of_held hk.1 hk.2 h) hc
    · exact condLegal_of_condOf (exec_cond_of_flagRegister hf (fun ho h0 => hk ⟨ho, h0⟩) h)

/-- An instruction of a RUNNING core keeps the invariant: if it stops the core, it leaves no call in progress. -/
theorem exec_inv {i : Instr} {s t : State} (hs : s.Inv) (hr : s.rs = .running) (ha : s.activity = .idle)
    (h : exec i s = .next t) : t.Inv := by
  obtain ⟨hm, hc, -⟩ := hs
  refine ⟨exec_wf hm h, exec_condLegal hc h, fun hta => ?_⟩
  rcases exec_rs h with ht | ⟨ht, -⟩
  · exact ht.trans hr
  · exact absurd (ht.trans ha) hta

/-- The fetch keeps the invariant. -/
theorem State.afterFetch_inv {s : State} (hs : s.Inv) : s.afterFetch.Inv := by
  obtain ⟨hm, hc, ha⟩ := hs
  rw [State.afterFetch_eq]
  exact ⟨State.readEffect_wf s.pc hm, State.condLegal_congr (by simp) hc, by simpa using ha⟩

/-- A call that waits keeps COND legal. -/
theorem AwaitEffect.condLegal {s t : State} (h : AwaitEffect s t) (hc : s.condLegal = true) : t.condLegal = true := by
  by_cases hk : s.kbd = []
  · exact State.condLegal_congr (h.cond_of_nil hk) hc
  · exact condLegal_of_condOf (h.cond_of_ne_nil hk)

/-- A TRAP step that goes on keeps the invariant: it leaves the core RUNNING. -/
theorem State.resumeService_inv {s : State} (hs : s.Inv) (hr : s.rs = .running) : s.resumeService.Inv := by
  obtain ⟨hm, hc, -⟩ := hs
  have hrs (_ : s.resumeService.activity ≠ .idle) : s.resumeService.rs = .running := s.resumeService_rs.trans hr
  rcases s.resumeService_cases with ⟨-, h⟩ | ⟨-, a, es, h⟩
  · exact ⟨h.mem_eq ▸ hm, h.condLegal hc, hrs⟩
  · exact ⟨by rw [h]; exact hm, State.condLegal_congr (by rw [h]; rfl) hc, hrs⟩

/-- Settles O50: by the four things a step can be. -/
theorem stepKeepsTheInvariant : Obligations.StepKeepsTheInvariant := by
  intro s t hs h
  rcases step_cases s with ⟨hr, ha, hstep⟩ | ⟨hr, -, hstep⟩ | ⟨-, hstep⟩ | ⟨-, hstep⟩ <;> rw [hstep] at h
  · exact exec_inv (State.afterFetch_inv hs) (s.afterFetch_rs.trans hr) (s.afterFetch_activity.trans ha) h
  · obtain rfl := Host.Outcome.next.inj h
    exact State.resumeService_inv hs hr
  · obtain rfl := Host.Outcome.next.inj h
    exact hs
  · cases h

/-! ### Reset (10 R37) -/

/-- Every register is 0x0000 at machine start. -/
theorem State.reset_reg (r : Reg) : State.reset.reg r = 0x0000#16 := by simp [State.reg, State.reset]

/-- A launch changes the reset state's memory only (70_reset_and_hazards.md R241). -/
theorem State.launch_eq {images : List (List Byte)} {s : State} (h : State.launch images = some s) :
    s = State.reset.setMem s.mem := by
  obtain ⟨m, -, rfl⟩ := Option.map_eq_some_iff.1 h
  rfl

/-- Settles O53: each field of the reset state as the spec gives it, and what a launch keeps of it. -/
theorem resetStateIsAsTheSpecSays : Obligations.ResetStateIsAsTheSpecSays :=
  ⟨⟨State.reset_reg, rfl, rfl, rfl, by decide, rfl, fun _ => rfl⟩, fun _ _ => State.launch_eq⟩

end Sys2Proof.Machine
end

section
/-! What the core does to its two devices (spec 15_interfaces.md R52 to R54): which characters an instruction or a step takes,
and what it adds to the output record. -/

namespace Sys2Proof.Machine

/-! ### The devices only move on -/

/-- The devices of `t` are those of `s` moved on: events at the end of the record, characters taken from the front. -/
def State.DevicesAdvance (s t : State) : Prop := s.out <+: t.out ∧ t.kbd <:+ s.kbd

/-- Devices that are as they were have moved on by nothing. -/
theorem SameDevices.advance {s t : State} : SameDevices s t → s.DevicesAdvance t
  | ⟨hk, ho⟩ => ⟨ho ▸ List.prefix_rfl, hk ▸ List.suffix_rfl⟩

theorem State.DevicesAdvance.trans {s t u : State} : s.DevicesAdvance t → t.DevicesAdvance u → s.DevicesAdvance u
  | ⟨ho, hk⟩, ⟨ho', hk'⟩ => ⟨ho.trans ho', hk'.trans hk⟩

/-- Output events move the record on. -/
theorem State.emit_advance (s : State) (es : List ConEvent) : s.DevicesAdvance (s.emit es) :=
  ⟨List.prefix_append .., List.suffix_rfl⟩

/-- A read takes a character only at the status cell (20_memory.md R71). -/
theorem State.readEffect_kbd (s : State) (a : Word) :
    (s.readEffect a).kbd = if a = params.kbsrAddr then s.kbd.tail else s.kbd := by
  rcases s.readEffect_cases a with ⟨ha, h⟩ | ⟨ha, h⟩ <;> rw [h]
  · rw [if_neg ha]
  · rw [if_pos ha, State.pollKeyboard_kbd]

theorem State.readEffect_advance (s : State) (a : Word) : s.DevicesAdvance (s.readEffect a) := by
  refine ⟨by simp, ?_⟩
  rw [State.readEffect_kbd]
  split
  · exact List.tail_suffix _
  · exact List.suffix_rfl

theorem State.afterReads_advance (s : State) (as : List Word) : s.DevicesAdvance (s.afterReads as) := by
  induction as generalizing s with
  | nil => exact SameDevices.advance ⟨rfl, rfl⟩
  | cons a as ih => exact (s.readEffect_advance a).trans (ih _)

/-- A call that waits for a character takes the first pending one, if there is one (15_interfaces.md R53). -/
theorem AwaitEffect.kbd_eq {s t : State} (h : AwaitEffect s t) : t.kbd = s.kbd.tail := by
  cases h with
  | holds a es hk => simp [hk]
  | takes c q es hk => simp [hk]

theorem AwaitEffect.advance {s t : State} (h : AwaitEffect s t) : s.DevicesAdvance t := by
  refine ⟨?_, h.kbd_eq ▸ List.tail_suffix _⟩
  cases h <;> exact List.prefix_append ..

theorem exec_advance {i : Instr} {s t : State} (h : exec i s = .next t) : s.DevicesAdvance t := by
  cases exec_effect h with
  | result dr v hf hw ho => exact s.afterReads_advance _
  | store ea v hf ha => exact s.afterReads_advance _
  | jump | call | reserved => exact SameDevices.advance ⟨rfl, rfl⟩
  | await t hf hw ho ht => exact ht.advance
  | send t hf hw ho ht => obtain ⟨a, es, rfl⟩ := ht; exact s.emit_advance es
  | halt es hf hw hi => exact s.emit_advance es

theorem State.afterFetch_advance (s : State) : s.DevicesAdvance s.afterFetch := s.readEffect_advance s.pc

theorem State.resumeService_advance (s : State) : s.DevicesAdvance s.resumeService := by
  rcases s.resumeService_cases with ⟨-, h⟩ | ⟨-, a, es, h⟩
  · exact h.advance
  · rw [h]; exact s.emit_advance es

theorem step_advance {s t : State} (h : step s = .next t) : s.DevicesAdvance t := by
  rcases step_cases s with ⟨-, -, hs⟩ | ⟨-, -, hs⟩ | ⟨-, hs⟩ | ⟨-, hs⟩ <;> rw [hs] at h
  · exact s.afterFetch_advance.trans (exec_advance h)
  · obtain rfl := Host.Outcome.next.inj h
    exact s.resumeService_advance
  · obtain rfl := Host.Outcome.next.inj h
    exact SameDevices.advance ⟨rfl, rfl⟩
  · cases h

/-! ### Output (15_interfaces.md R54) -/

/-- GETC does no output event, whether it holds or completes (45_trap.md R181). -/
theorem State.awaitGetc_out (s : State) : s.awaitGetc.out = s.out := by
  rcases s.awaitGetc_cases with ⟨-, h⟩ | ⟨c, q, -, h⟩ <;> rw [h] <;> rfl

/-- A TRAP whose vector selects no service that produces output leaves the record. -/
theorem State.dispatchService_out {s : State} {v : Byte} (hv : producesOutput (.trap v) = false) :
    (s.dispatchService v).out = s.out := by
  rcases s.dispatchService_cases v with
    ⟨-, h⟩ | ⟨rfl, -⟩ | ⟨rfl, -⟩ | ⟨rfl, -⟩ | ⟨rfl, -⟩ | ⟨rfl, -⟩ | ⟨-, h⟩
  case inl => rw [h]; exact s.awaitGetc_out
  case inr.inr.inr.inr.inr.inr => rw [h]
  all_goals exact absurd hv (by decide)

/-- An instruction that is none of the five services leaves the record. -/
theorem exec_out_of_not_producesOutput {i : Instr} {s t : State} (h : exec i s = .next t)
    (hi : producesOutput i = false) : t.out = s.out := by
  cases i <;> obtain rfl := Host.Outcome.next.inj h
  case out | puts | inp | putsp | halt => cases hi
  case getc => exact State.awaitGetc_out _
  case trap v => exact State.dispatchService_out hi
  case br => split <;> rfl
  case ld | ldr | ldi => simp [State.loadFrom, State.indirect, State.memRead_eq]
  case sti => simp [State.indirect, State.memRead_eq]
  all_goals rfl

/-! ### Characters (15_interfaces.md R52) -/

/-- A read of the status cell answers one of two words (20_memory.md R72). -/
theorem State.memRead_kbsr_value {s : State} (hm : s.mem.wf = true) :
    (s.memRead params.kbsrAddr).1 = 0x0000#16 ∨ (s.memRead params.kbsrAddr).1 = params.kbsrReady := by
  rw [State.memRead_eq, State.readEffect_kbsr, State.pollKeyboard_kbsr hm]
  split
  · exact .inl rfl
  · exact .inr rfl

/-- A pointer read from the status cell is no pointer to the status cell. -/
theorem State.memRead_kbsr_ne {s : State} (hm : s.mem.wf = true) :
    (s.memRead params.kbsrAddr).1 ≠ params.kbsrAddr := by
  rcases State.memRead_kbsr_value hm with h | h <;> rw [h] <;> decide

/-- One read takes at most the first character. -/
theorem State.readEffect_kbd_cases (s : State) (a : Word) :
    (s.readEffect a).kbd = s.kbd ∨ (s.readEffect a).kbd = s.kbd.tail := by
  rw [State.readEffect_kbd]
  split
  · exact .inr rfl
  · exact .inl rfl

/-- The reads of one instruction take at most the first character: of the two reads of LDI, one at most polls. -/
theorem State.afterReads_readAddresses_kbd (i : Instr) {s : State} (hm : s.mem.wf = true) :
    (s.afterReads (readAddresses i s)).kbd = s.kbd ∨ (s.afterReads (readAddresses i s)).kbd = s.kbd.tail := by
  cases i
  case ldi dr off =>
    rcases s.readEffect_cases (s.pcRel9 off) with ⟨-, h⟩ | ⟨ha, -⟩
    · simpa only [readAddresses, State.afterReads_cons, State.afterReads_nil, h] using s.readEffect_kbd_cases _
    · have hp : (s.indirect off).1 ≠ params.kbsrAddr := by
        rw [State.indirect, ha]; exact State.memRead_kbsr_ne hm
      refine .inr ?_
      rw [readAddresses, State.afterReads_cons, State.afterReads_cons, State.readEffect_of_ne hp, State.afterReads_nil,
        State.readEffect_kbd, if_pos ha]
  case ld | ldr | sti => exact s.readEffect_kbd_cases _
  all_goals exact .inl rfl

/-- An instruction takes at most the first character. -/
theorem exec_kbd_cases {i : Instr} {s t : State} (hm : s.mem.wf = true) (h : exec i s = .next t) :
    t.kbd = s.kbd ∨ t.kbd = s.kbd.tail := by
  cases exec_effect h with
  | result dr v hf hw ho => exact State.afterReads_readAddresses_kbd i hm
  | store ea v hf ha => exact State.afterReads_readAddresses_kbd i hm
  | jump | call | reserved | halt => exact .inl rfl
  | await t hf hw ho ht => exact .inr ht.kbd_eq
  | send t hf hw ho ht => obtain ⟨a, es, rfl⟩ := ht; exact .inl rfl

/-- An instruction that reads no cell and is no TRAP takes no character. -/
theorem exec_kbd_of_no_read {i : Instr} {s t : State} (hr : readAddresses i s = []) (ho : i.opcode ≠ .trap)
    (h : exec i s = .next t) : t.kbd = s.kbd := by
  cases exec_effect h with
  | result | store => rw [hr]; rfl
  | jump | call | reserved | halt => rfl
  | await t hf hw ho' ht => exact absurd ho' ho
  | send t hf hw ho' ht => exact absurd ho' ho

/-- A fetch that polls takes the step's one character: the word it reads is a BR or an RTI. -/
theorem step_kbd_of_polling_fetch {s t : State} (hm : s.mem.wf = true) (hpc : s.pc = params.kbsrAddr)
    (h : exec (decode s.fetchedWord) s.afterFetch = .next t) : t.kbd = s.kbd.tail := by
  have hfetch : s.afterFetch.kbd = s.kbd.tail := by
    rw [State.afterFetch_eq, State.setPc_kbd, State.readEffect_kbd, if_pos hpc]
  rw [← hfetch]
  have hw := State.memRead_kbsr_value hm
  rw [← hpc] at hw
  rcases hw with hw | hw
  all_goals
    rw [State.fetchedWord, hw] at h
    exact exec_kbd_of_no_read rfl (by decide) h

/-- A step takes at most the first character. -/
theorem step_kbd_cases {s t : State} (hm : s.mem.wf = true) (h : step s = .next t) :
    t.kbd = s.kbd ∨ t.kbd = s.kbd.tail := by
  rcases step_cases s with ⟨-, -, hs⟩ | ⟨-, -, hs⟩ | ⟨-, hs⟩ | ⟨-, hs⟩ <;> rw [hs] at h
  · by_cases hpc : s.pc = params.kbsrAddr
    · exact .inr (step_kbd_of_polling_fetch hm hpc h)
    · have hfetch : s.afterFetch = s.setPc (s.pc + 1#16) := by rw [State.afterFetch_eq, State.readEffect_of_ne hpc]
      rw [hfetch] at h
      exact exec_kbd_cases (s := s.setPc (s.pc + 1#16)) hm h
  · obtain rfl := Host.Outcome.next.inj h
    rcases s.resumeService_cases with ⟨-, ht⟩ | ⟨-, a, es, ht⟩
    · exact .inr ht.kbd_eq
    · exact .inl (by rw [ht]; rfl)
  · obtain rfl := Host.Outcome.next.inj h
    exact .inl rfl
  · cases h

/-! ### Inside a step (15_interfaces.md R57) -/

/-- The actions of a step by way of a state inside it add up to the whole step's. -/
theorem State.actionsTo_append {s p t : State} (hp : s.DevicesAdvance p) (ht : p.DevicesAdvance t) :
    sentBy (s.actionsTo p ++ p.actionsTo t) = sentBy (s.actionsTo t) ∧
      takenBy (s.actionsTo p ++ p.actionsTo t) = takenBy (s.actionsTo t) := by
  obtain ⟨⟨es, hes⟩, hk⟩ := hp
  obtain ⟨⟨fs, hfs⟩, hk'⟩ := ht
  have hlen := hk.length_le
  have hlen' := hk'.length_le
  constructor
  · simp [← hfs, ← hes]
  · simp only [takenBy_append, State.takenBy_actionsTo]
    omega

/-- A step sends and takes what its next state shows: for the IN that begins, up to its prompt and after it together. -/
theorem State.stepActions_effect {s t : State} (h : step s = .next t) :
    sentBy (s.stepActions t) = sentBy (s.actionsTo t) ∧ takenBy (s.stepActions t) = takenBy (s.actionsTo t) := by
  unfold State.stepActions
  split
  case isFalse => exact ⟨rfl, rfl⟩
  case isTrue hin =>
    obtain ⟨hfetch, hi⟩ : s.canFetch = true ∧ decode s.fetchedWord = .inp := by simpa using hin
    rw [step, if_pos hfetch, hi] at h
    obtain rfl := Host.Outcome.next.inj h
    exact State.actionsTo_append (s.afterFetch_advance.trans (s.afterFetch.enterTrap.emit_advance _))
      (State.awaitInput_effect _).advance

/-- With all the events of a step the record is the next state's. -/
theorem State.out_append_sentBy_stepActions {s t : State} (h : step s = .next t) :
    s.out ++ sentBy (s.stepActions t) = t.out := by
  obtain ⟨hout, -⟩ := step_advance h
  rw [(State.stepActions_effect h).1, State.sentBy_actionsTo]
  exact List.prefix_iff_eq_append.1 hout

/-- With all the characters of a step taken, those of the next state are pending. -/
theorem State.kbd_drop_takenBy_stepActions {s t : State} (h : step s = .next t) :
    s.kbd.drop (takenBy (s.stepActions t)) = t.kbd := by
  obtain ⟨-, hkbd⟩ := step_advance h
  rw [(State.stepActions_effect h).2, State.takenBy_actionsTo]
  exact (List.suffix_iff_eq_drop.1 hkbd).symm

/-- A step takes no two characters, so that its characters are taken whole or not at all. -/
theorem State.takenBy_stepActions_le {s t : State} (hm : s.mem.wf = true) (h : step s = .next t) :
    takenBy (s.stepActions t) ≤ 1 := by
  rw [(State.stepActions_effect h).2, State.takenBy_actionsTo]
  rcases step_kbd_cases hm h with hk | hk <;> rw [hk]
  · omega
  · rw [List.length_tail]
    omega

/-- What the host finds when it stops a run in the middle of a step: the step's first actions are done. -/
theorem System.stoppedAt_core {y : System} {t : State} (hy : y.inProgress = true) (h : step y.core = .next t) (n : Nat) :
    (y.stoppedAt n).core =
      { y.core with
        kbd := y.core.kbd.drop (takenBy ((y.core.stepActions t).take n)),
        out := y.core.out ++ sentBy ((y.core.stepActions t).take n) } := by
  cases n with
  | zero => simp
  | succ n =>
    rw [← State.doActions_eq]
    simp [System.stoppedAt, hy, System.afterStep, State.stoppedInStep, h]

end Sys2Proof.Machine
end

section
/-! The statements about the block's interfaces (spec 15_interfaces.md), by what a step does to the devices and what an event
does to the core. -/

namespace Sys2Proof.Machine

/-! ### A held call (15_interfaces.md R53) -/

/-- A core with a TRAP in progress goes on with it and does not fetch. -/
theorem step_of_in_progress {s : State} (hr : s.rs = .running) (ha : s.activity ≠ .idle) :
    step s = .next s.resumeService := by
  have hf : ¬ s.canFetch = true := fun h => ha (s.canFetch_iff.1 h).2
  rw [step, if_neg hf, State.withoutFetch, hr]

/-- What a call that waits adds to the record when its character `c` comes: IN echoes it and flushes (45_trap.md R184). -/
def echoOf (a : Activity) (c : Byte) : List ConEvent := if a = .input then [.put c, .flush] else []

/-- A call that waits is complete: `c` is in R0 with its flags, and `q` is still pending (45 R181). -/
def State.takeCharacter (s : State) (c : Byte) (q : List Byte) : State :=
  (((s.setKbd q).setActivity .idle).setReg 0#3 (zextChar c)).setcc (zextChar c)

/-- GETC with no character pending holds. -/
theorem State.awaitGetc_of_nil {s : State} (hk : s.kbd = []) : s.awaitGetc = s.setActivity .getc := by
  rw [State.awaitGetc, hk]

/-- IN after its prompt, with no character pending, holds. -/
theorem State.awaitInput_of_nil {s : State} (hk : s.kbd = []) : s.awaitInput = s.setActivity .input := by
  rw [State.awaitInput, hk]

/-- GETC with a character pending takes it. -/
theorem State.awaitGetc_of_cons {s : State} {c : Byte} {q : List Byte} (hk : s.kbd = c :: q) :
    s.awaitGetc = (s.emit (echoOf .getc c)).takeCharacter c q := by
  rw [State.awaitGetc, hk, echoOf, if_neg (by decide), State.emit_nil]
  rfl

/-- IN after its prompt, with a character pending, echoes it and takes it. -/
theorem State.awaitInput_of_cons {s : State} {c : Byte} {q : List Byte} (hk : s.kbd = c :: q) :
    s.awaitInput = (s.emit (echoOf .input c)).takeCharacter c q := by
  simp only [State.awaitInput, hk, State.flush_putBytes]
  rfl

/-- A held call with no character pending stays as it is. -/
theorem State.resumeService_of_nil {s : State} (ha : s.activity = .getc ∨ s.activity = .input) (hk : s.kbd = []) :
    s.resumeService = s := by
  rcases ha with ha | ha <;> simp only [State.resumeService, ha]
  · rw [State.awaitGetc_of_nil hk, State.setActivity_self ha]
  · rw [State.awaitInput_of_nil hk, State.setActivity_self ha]

/-- A held call with a character pending takes it; if it is IN, it echoes it. -/
theorem State.resumeService_of_cons {s : State} {c : Byte} {q : List Byte}
    (ha : s.activity = .getc ∨ s.activity = .input) (hk : s.kbd = c :: q) :
    s.resumeService = (s.emit (echoOf s.activity c)).takeCharacter c q := by
  rcases ha with ha | ha <;> simp only [State.resumeService, ha]
  · exact State.awaitGetc_of_cons hk
  · exact State.awaitInput_of_cons hk

/-- A step of a held core goes on with the call. -/
theorem step_of_held {s : State} (hr : s.rs = .running) (ha : s.activity = .getc ∨ s.activity = .input) :
    step s = .next s.resumeService :=
  step_of_in_progress hr (by rcases ha with ha | ha <;> rw [ha] <;> decide)

/-- A character as a word has the character's value (00_scope.md R9). -/
theorem zextChar_toNat (c : Byte) : (zextChar c).toNat = c.toNat :=
  BitVec.toNat_setWidth_of_le (by decide)

/-- Settles O17: a held call that goes on without its character, and with it. -/
theorem heldCallCompletesWhenACharacterArrives : Obligations.HeldCallCompletesWhenACharacterArrives := by
  intro s hr ha
  refine ⟨fun hk => ?_, fun c q hk => ⟨_, step_of_held hr ha, ?_⟩⟩
  · rw [step_of_held hr ha, State.resumeService_of_nil ha hk]
  rw [State.resumeService_of_cons ha hk, State.takeCharacter]
  refine ⟨?_, ?_, fun k hk0 => ?_, rfl, fun _ _ => rfl, rfl, hr, rfl, rfl⟩
  · rw [State.setcc_reg, State.reg_setReg_same, zextChar_toNat]
  · rw [State.setcc_reg, State.reg_setReg_same]
    exact flagsFor_condOf _
  · exact State.reg_setReg_ne _ _ (by simpa using hk0)

/-- After an arrival in an empty queue, that character is the one pending. -/
theorem State.keyArrives_kbd_of_nil {s : State} (hk : s.kbd = []) (c : Byte) : (s.keyArrives c).kbd = [c] := by
  rw [State.keyArrives, State.setKbd_kbd, hk, List.nil_append]

/-- A call that was held with an empty queue completes when `c` has arrived as it does with `c` pending from the start. -/
theorem step_keyArrives_of_held {s : State} {a : Activity} (ha : a = .getc ∨ a = .input) (hr : s.rs = .running)
    (hk : s.kbd = []) (c : Byte) :
    step ((s.setActivity a).keyArrives c) = .next (((s.keyArrives c).emit (echoOf a c)).takeCharacter c []) := by
  have hheld : ((s.setActivity a).keyArrives c).activity = .getc ∨ ((s.setActivity a).keyArrives c).activity = .input := ha
  rw [step_of_held (s := (s.setActivity a).keyArrives c) hr hheld,
    State.resumeService_of_cons hheld (State.keyArrives_kbd_of_nil hk c)]
  rfl

/-- Settles O18: the step after the arrival goes on with the wait that the call began. -/
theorem arrivalDuringHoldEqualsArrivalBeforeTheCall : Obligations.ArrivalDuringHoldEqualsArrivalBeforeTheCall := by
  rintro i s c (rfl | rfl) hr hk
  · exact ⟨s.enterTrap.setActivity .getc, _, congrArg Host.Outcome.next (State.awaitGetc_of_nil hk), by simp,
      step_keyArrives_of_held (s := s.enterTrap) (.inl rfl) hr hk c,
      congrArg Host.Outcome.next (State.awaitGetc_of_cons (State.keyArrives_kbd_of_nil hk c))⟩
  · exact ⟨(s.enterTrap.putBytes params.inPrompt).setActivity .input, _,
      congrArg Host.Outcome.next (State.awaitInput_of_nil hk), by simp,
      step_keyArrives_of_held (s := s.enterTrap.putBytes params.inPrompt) (.inr rfl) hr hk c,
      congrArg Host.Outcome.next (State.awaitInput_of_cons (State.keyArrives_kbd_of_nil hk c))⟩

/-! ### Output and characters (15_interfaces.md R52, R54) -/

/-- Settles O47: by the instruction, and by what a step does to the record. -/
theorem onlyServicesProduceOutput : Obligations.OnlyServicesProduceOutput :=
  ⟨fun _ _ _ => exec_out_of_not_producesOutput, fun _ _ h => (step_advance h).1⟩

/-- Settles O48: a fetch that polls reads a word that takes no character, and a pointer that polls is no status cell. -/
theorem aStepTakesAtMostTheFirstCharacter : Obligations.AStepTakesAtMostTheFirstCharacter :=
  fun _ _ => step_kbd_cases

/-! ### The host (15_interfaces.md R55, R57) -/

/-- The reset port gives a state that meets the invariant, whatever the core was (70_reset_and_hazards.md R240). -/
theorem State.assertReset_inv (s : State) : s.assertReset.Inv := ⟨rfl, rfl, fun _ => rfl⟩

/-- Settles O52: reset restores the invariant, a load is a write, a step keeps it, and the other events touch neither
memory nor COND nor the run. -/
theorem hostEventsKeepTheInvariant : Obligations.HostEventsKeepTheInvariant := by
  intro y z e hy h
  rcases System.react_cases h with ⟨n, -, rfl⟩ | ⟨a, v, -, -, rfl⟩ | ⟨-, -, rfl⟩ | ⟨c, -, rfl⟩ | ⟨t, -, -, -, ht, rfl⟩ |
    ⟨n, -, -, rfl⟩
  · exact State.assertReset_inv _
  · obtain ⟨hm, hc, ha⟩ := hy
    exact ⟨State.setCell_wf a v hm, hc, ha⟩
  · exact hy
  · exact hy
  · exact stepKeepsTheInvariant _ _ hy ht
  · obtain ⟨k, es, hk⟩ := y.stoppedAt_cases n
    have hcore : (y.stoppedAt n).core.Inv := by rw [hk]; exact hy
    exact hcore

/-- A RUNNING core always has a next state. -/
theorem step_of_running {s : State} (hr : s.rs = .running) : ∃ t, step s = .next t := by
  rcases step_cases s with ⟨-, -, hs⟩ | ⟨-, -, hs⟩ | ⟨hr', -⟩ | ⟨hr', -⟩
  · rw [hs]; exact exec_answers_next _ _
  · exact ⟨_, hs⟩
  · exact absurd (hr.symm.trans hr') nofun
  · exact absurd (hr.symm.trans hr') nofun

/-- When a step event can happen (40_cycle.md R130). -/
theorem System.react_step_isSome (y : System) :
    (y.react .step).isSome = true ↔ y.phase = .started ∧ y.core.rs = .running := by
  rw [← System.inProgress_iff]
  by_cases hy : y.inProgress = true
  · obtain ⟨t, ht⟩ := step_of_running (y.inProgress_iff.1 hy).2
    simp [System.react, hy, ht]
  · simp [System.react, hy]

/-- What a cut gives, and when it can happen. -/
theorem System.react_cut (y : System) (n : Nat) :
    y.react (.cut n) =
      if y.phase = .loading || y.inProgress then some { y.stoppedAt n with phase := .abandoned } else none :=
  rfl

/-- Settles O58: each event's condition is the one it is tried on, and a RUNNING core never lacks a next state. -/
theorem hostActsOnlyAsAllowed : Obligations.HostActsOnlyAsAllowed := by
  intro y
  refine ⟨fun a v => Option.isSome_ite, Option.isSome_ite, y.react_step_isSome, fun n => ?_, ?_, fun n z h => ?_,
    fun n => ⟨_, rfl, rfl, rfl, fun hn => ?_⟩⟩
  · rw [System.react_cut, Option.isSome_ite, Bool.or_eq_true, decide_eq_true_eq, System.inProgress_iff]
  · rw [System.readout, Option.isSome_ite]
    simp [State.runningOut]
  · rw [System.react_cut, Option.ite_none_right_eq_some] at h
    obtain ⟨-, h⟩ := h
    obtain rfl := Option.some.inj h
    exact ⟨rfl, rfl⟩
  · rw [hn, System.stoppedAt_zero]

/-- Settles O60: a cut or a reset leaves a first part of the step's actions done. -/
theorem cutInsideAStepLeavesAFirstPart : Obligations.CutInsideAStepLeavesAFirstPart := by
  intro y t hm hp hr h
  have hy := y.inProgress_iff.2 ⟨hp, hr⟩
  have hcore := System.stoppedAt_core hy h
  have hcut (n : Nat) : y.react (.cut n) = some { y.stoppedAt n with phase := .abandoned } := by
    rw [System.react_cut, hy, Bool.or_true, if_pos rfl]
  have hout := State.out_append_sentBy_stepActions h
  have hkbd := State.kbd_drop_takenBy_stepActions h
  refine ⟨fun n => ⟨_, _, hcut n, rfl, ?_, ?_, ?_, rfl, rfl⟩, fun o ho ho' => ?_, ?_⟩
  · rw [hcore]
    exact List.prefix_append ..
  · rw [hcore, ← hout]
    exact (List.prefix_append_right_inj _).2 (sentBy_take_prefix _ n)
  · rw [hcore]
    have hle := takenBy_take_le (y.core.stepActions t) n
    have hone := State.takenBy_stepActions_le hm h
    rcases Nat.eq_zero_or_pos (takenBy ((y.core.stepActions t).take n)) with h0 | hpos
    · exact .inl (by rw [h0, List.drop_zero])
    · have hall : takenBy ((y.core.stepActions t).take n) = takenBy (y.core.stepActions t) := by omega
      exact .inr (by rw [hall, hkbd])
  · obtain ⟨es, rfl⟩ := ho
    rw [← hout, List.prefix_append_right_inj] at ho'
    obtain ⟨n, hn⟩ := sentBy_take_onto (y.core.stepActions t) es.length
    exact ⟨n, _, hcut n, by rw [hcore, hn, ← List.prefix_iff_eq_take.1 ho']⟩
  · refine ⟨(y.core.stepActions t).length, _, hcut _, ?_, ?_⟩
    · rw [hcore, List.take_length, hout]
    · rw [hcore, List.take_length, hkbd]

end Sys2Proof.Machine
end

section
/-! The statements about memory and the mapped-I/O policy (spec 20_memory.md): what a write, a poll and a sequence of reads
leave unchanged, and that a fetch sees the store before it. -/

namespace Sys2Proof.Machine

/-! ### The write (20_memory.md R74, R81) -/

/-- A write rewrites no cell but its own, and nothing besides memory. -/
theorem State.memWrite_frame (s : State) (a v : Word) :
    SameCellsExcept [a] s (s.memWrite a v) ∧ SameRegsExcept [] s (s.memWrite a v) ∧ (s.memWrite a v).cond = s.cond ∧
      (s.memWrite a v).pc = s.pc ∧ SameDevices s (s.memWrite a v) ∧ SameRun s (s.memWrite a v) :=
  ⟨fun _ hb => State.cell_setCell_ne v (by simpa using hb), fun _ _ => rfl, rfl, rfl, ⟨rfl, rfl⟩, rfl, rfl⟩

/-- Settles O12: the written cell reads `v` in a canonical memory, and the write has a frame at every address. -/
theorem memWriteStoresAtEveryAddress : Obligations.MemWriteStoresAtEveryAddress := fun s a v hm =>
  ⟨State.cell_setCell_same a v hm, s.memWrite_frame a v⟩

/-! ### The poll (20 R71, R72) -/

/-- `MemRead` at the status cell polls and answers what the poll left there. -/
theorem State.memRead_kbsr (s : State) :
    s.memRead params.kbsrAddr = (s.pollKeyboard.cell params.kbsrAddr, s.pollKeyboard) := by
  rw [State.memRead_eq, State.readEffect_kbsr]

/-- A poll that finds no character rewrites the status cell only. -/
theorem State.pollKeyboard_sameCells_of_nil {s : State} (hk : s.kbd = []) :
    SameCellsExcept [params.kbsrAddr] s s.pollKeyboard := fun a ha => by
  by_cases hd : a = params.kbdrAddr
  · rw [hd, State.pollKeyboard_kbdr_nil hk]
  · exact State.pollKeyboard_cell_ne (by simpa using ha) hd

/-- Any poll rewrites the two keyboard cells at most. -/
theorem State.pollKeyboard_sameCells (s : State) :
    SameCellsExcept [params.kbsrAddr, params.kbdrAddr] s s.pollKeyboard := fun a ha => by
  obtain ⟨hs, hd⟩ : a ≠ params.kbsrAddr ∧ a ≠ params.kbdrAddr := by simpa using ha
  exact State.pollKeyboard_cell_ne hs hd

/-- Settles O11: away from the status cell the read is plain; there it is a poll, with or without a character. -/
theorem memReadPollsAtTheStatusCellOnly : Obligations.MemReadPollsAtTheStatusCellOnly := by
  refine fun s hm => ⟨fun a => State.memRead_of_ne, fun hk => ⟨s.pollKeyboard, ?_⟩, fun c q hk => ⟨s.pollKeyboard, ?_⟩⟩
  · have hstatus : s.pollKeyboard.cell params.kbsrAddr = 0x0000#16 := by rw [State.pollKeyboard_kbsr hm, if_pos hk]
    have hkbd : s.pollKeyboard.kbd = s.kbd := by rw [State.pollKeyboard_kbd, hk, List.tail_nil]
    exact ⟨by rw [State.memRead_kbsr, hstatus], hstatus, State.pollKeyboard_sameCells_of_nil hk,
      fun r _ => s.pollKeyboard_reg r, s.pollKeyboard_cond, s.pollKeyboard_pc, ⟨hkbd, s.pollKeyboard_out⟩,
      s.pollKeyboard_rs, s.pollKeyboard_activity⟩
  · have hstatus : s.pollKeyboard.cell params.kbsrAddr = params.kbsrReady := by
      rw [State.pollKeyboard_kbsr hm, if_neg (hk ▸ List.cons_ne_nil c q)]
    have hkbd : s.pollKeyboard.kbd = q := by rw [State.pollKeyboard_kbd, hk, List.tail_cons]
    exact ⟨by rw [State.memRead_kbsr, hstatus], hstatus, by rw [State.pollKeyboard_kbdr_cons hk hm, zextChar_toNat],
      s.pollKeyboard_sameCells, fun r _ => s.pollKeyboard_reg r, s.pollKeyboard_cond, s.pollKeyboard_pc, hkbd,
      s.pollKeyboard_out, s.pollKeyboard_rs, s.pollKeyboard_activity⟩

/-! ### Side effects (20 R81) -/

/-- Settles O13: the reset state with one character pending, and the frames of the poll and of the write. -/
theorem onlyStatusReadHasASideEffect : Obligations.OnlyStatusReadHasASideEffect :=
  ⟨⟨State.reset.keyArrives 0x61#8, by decide⟩, fun s => s.memRead_kbsr ▸ s.pollKeyboard_sameCells,
    fun _ _ => State.memRead_of_ne, kbdr_ne_kbsr, State.memWrite_frame⟩

/-! ### The data cell (20 R73, R82) -/

/-- After a poll that took `c`, a read of the data cell answers `c` and changes nothing. -/
theorem State.memRead_kbdr_pollKeyboard {s : State} {c : Byte} {q : List Byte} (hk : s.kbd = c :: q)
    (hm : s.mem.wf = true) : s.pollKeyboard.memRead params.kbdrAddr = (zextChar c, s.pollKeyboard) := by
  rw [State.memRead_of_ne kbdr_ne_kbsr, State.pollKeyboard_kbdr_cons hk hm]

/-- Settles O14: the second poll is a poll of the state the first one left, in which `d` is the first character. -/
theorem dataCellHoldsTheLastPolledCharacter : Obligations.DataCellHoldsTheLastPolledCharacter := by
  refine fun s hm => ⟨State.memRead_of_ne kbdr_ne_kbsr, fun c q hk => ?_, fun c d q hk => ?_⟩
  · simp only [State.memRead_kbsr, State.memRead_kbdr_pollKeyboard hk hm]
    exact ⟨rfl, rfl⟩
  · have hk' : s.pollKeyboard.kbd = d :: q := by rw [State.pollKeyboard_kbd, hk, List.tail_cons]
    simp only [State.memRead_kbsr, State.memRead_kbdr_pollKeyboard hk' (State.pollKeyboard_wf hm)]
    exact ⟨rfl, by rw [State.pollKeyboard_kbd, hk', List.tail_cons]⟩

/-! ### What changes a cell (20 R84) -/

/-- A cell is a matter of memory alone. -/
theorem State.cell_congr {s t : State} (h : t.mem = s.mem) (a : Word) : t.cell a = s.cell a := by
  rw [State.cell, h, State.cell]

/-- Reads leave a cell that is no keyboard cell, and every cell if none of them polls. -/
theorem State.afterReads_cell {s : State} {as : List Word} {a : Word}
    (h : a = params.kbsrAddr ∨ a = params.kbdrAddr → params.kbsrAddr ∉ as) : (s.afterReads as).cell a = s.cell a := by
  induction as generalizing s with
  | nil => rfl
  | cons b as ih =>
    rw [State.afterReads_cons, ih fun ha hmem => h ha (List.mem_cons_of_mem b hmem)]
    by_cases ha : a = params.kbsrAddr ∨ a = params.kbdrAddr
    · rw [State.readEffect_of_ne (List.ne_of_not_mem_cons (h ha)).symm]
    · rw [not_or] at ha
      exact State.readEffect_cell_ne ha.1 ha.2

/-- Settles O46: the reads of an instruction change keyboard cells only, its store one cell, and nothing else touches
memory. -/
theorem cellsChangeOnlyByStoresAndPolls : Obligations.CellsChangeOnlyByStoresAndPolls := by
  intro i s t a h hstore hpoll
  cases exec_effect h with
  | result dr v hf hw ho => exact State.afterReads_cell hpoll
  | store ea v hf ha =>
    have hne : a ≠ ea := fun e => hstore (e ▸ ha)
    exact (State.cell_setCell_ne v hne).trans (State.afterReads_cell hpoll)
  | jump | call | reserved | halt => rfl
  | await t hf hw ho ht => exact State.cell_congr (s := s.enterTrap) ht.mem_eq a
  | send t hf hw ho ht => obtain ⟨b, es, rfl⟩ := ht; rfl

/-! ### A store and the fetch after it (20 R88) -/

/-- What a store does: its reads, and then the stored register's value, which no read changes, in its cell (44_store.md R170
to R172). -/
theorem exec_of_store {i : Instr} {s : State} {sr : Reg} {ea : Word} (hr : storedRegister i = some sr)
    (ha : storeAddress i s = some ea) :
    exec i s = .next ((s.afterReads (readAddresses i s)).memWrite ea (s.reg sr)) := by
  cases i
  case st | str => cases hr; cases ha; rfl
  case sti r off =>
    cases hr; cases ha
    rw [exec, execSti, State.indirect, State.memRead_eq, State.readEffect_reg]
    rfl
  all_goals cases hr

/-- What the next step finds after a store: the value in its cell, and pc and the run as they were. -/
theorem exec_store_leaves {i : Instr} {s : State} {sr : Reg} {ea : Word} (hm : s.mem.wf = true)
    (hr : storedRegister i = some sr) (ha : storeAddress i s = some ea) :
    ∃ t, exec i s = .next t ∧ t.cell ea = s.reg sr ∧ t.pc = s.pc ∧ SameRun s t :=
  ⟨_, exec_of_store hr ha, State.cell_setCell_same _ _ (State.afterReads_wf _ hm), s.afterReads_pc _, s.afterReads_rs _,
    s.afterReads_activity _⟩

/-- A RUNNING core with no call in progress fetches and runs the word at pc (40_cycle.md R131). -/
theorem step_of_idle {s : State} (hr : s.rs = .running) (ha : s.activity = .idle) :
    step s = exec (decode s.fetchedWord) s.afterFetch :=
  if_pos (s.canFetch_iff.2 ⟨hr, ha⟩)

/-- A fetch away from the status cell reads the stored word. -/
theorem State.fetchedWord_of_ne {s : State} (h : s.pc ≠ params.kbsrAddr) : s.fetchedWord = s.cell s.pc := by
  rw [State.fetchedWord, State.memRead_of_ne h]

/-- A fetch away from the status cell increments pc and does nothing else. -/
theorem State.afterFetch_of_ne {s : State} (h : s.pc ≠ params.kbsrAddr) : s.afterFetch = s.setPc (s.pc + 1#16) := by
  rw [State.afterFetch_eq, State.readEffect_of_ne h]

/-- The fetch leaves the registers. -/
theorem State.afterFetch_reg (s : State) (r : Reg) : s.afterFetch.reg r = s.reg r := by
  rw [State.afterFetch_eq, State.setPc_reg, State.readEffect_reg]

/-- The fetch keeps the canonical form. -/
theorem State.afterFetch_wf {s : State} (hm : s.mem.wf = true) : s.afterFetch.mem.wf = true :=
  State.readEffect_wf s.pc hm

/-- Settles O49: the store leaves pc at the cell it stored to, and the fetch there is plain. -/
theorem storeIsSeenByTheNextFetch : Obligations.StoreIsSeenByTheNextFetch := by
  intro s sr hm hr ha hsr hea hne
  obtain ⟨t, hexec, hcell, hpc, hrs, hact⟩ := exec_store_leaves (State.afterFetch_wf hm) hsr hea
  rw [State.afterFetch_eq, State.setPc_pc] at hpc
  rw [State.afterFetch_rs, hr] at hrs
  rw [State.afterFetch_activity, ha] at hact
  have htne : t.pc ≠ params.kbsrAddr := hpc ▸ hne
  have hfetch : t.fetchedWord = s.reg sr := by
    rw [State.fetchedWord_of_ne htne, hpc, hcell, State.afterFetch_reg]
  exact ⟨t, (step_of_idle hr ha).trans hexec, hpc, hfetch,
    by rw [step_of_idle hrs hact, hfetch, State.afterFetch_of_ne htne]⟩

end Sys2Proof.Machine
end

section
/-! The statements about the encoding (spec 30_encoding.md). The one fact behind them is `decode_eq_iff_holdsOperands`: a
word decodes to a well-formed instruction just when it holds that instruction's opcode, mode bit and operands. To agree with
the instruction's own word on the examined bits says the same thing (`examined_eq_encode_iff`). -/

namespace Sys2Proof.Machine

/-! ### Fields at their places (30_encoding.md R102) -/

/-- A placed field is read back. -/
theorem extractLsb'_place_self {n lo : Nat} (h : lo + n ≤ 16) (f : BitVec n) : (place lo f).extractLsb' lo n = f := by
  apply BitVec.eq_of_getLsbD_eq
  intro k hk
  have hbit : lo + k < 16 := by omega
  simp only [BitVec.getLsbD_extractLsb', getLsbD_place, hk, hbit, Nat.le_add_right, Nat.add_sub_cancel_left, decide_true,
    Bool.true_and]

/-- A placed field shows nothing of itself in the fields beside it. -/
theorem extractLsb'_place_of_disjoint {n lo n' lo' : Nat} (h : lo + n ≤ lo' ∨ lo' + n' ≤ lo) (f : BitVec n') :
    (place lo' f).extractLsb' lo n = 0#n := by
  apply BitVec.eq_of_getLsbD_eq
  intro k hk
  rw [BitVec.getLsbD_extractLsb', getLsbD_place, BitVec.getLsbD_zero]
  rcases h with below | above
  · have hlo : ¬ lo' ≤ lo + k := by omega
    simp only [hlo, decide_false, Bool.false_and, Bool.and_false]
  · rw [BitVec.getLsbD_of_ge f (lo + k - lo') (by omega), Bool.and_false, Bool.and_false]

/-- A field put back at its place is what the field's mask keeps of the word. -/
theorem place_extractLsb' (lo n : Nat) (w : Word) : place lo (w.extractLsb' lo n) = w &&& fieldMask lo n := by
  apply BitVec.eq_of_getLsbD_eq
  intro k hk
  rw [fieldMask, BitVec.getLsbD_and, getLsbD_place, getLsbD_place, BitVec.getLsbD_extractLsb', BitVec.getLsbD_allOnes]
  by_cases hlo : lo ≤ k
  · simp only [hlo, hk, Nat.add_sub_cancel' hlo, decide_true, Bool.true_and, Bool.and_comm]
  · simp only [hlo, decide_false, Bool.false_and, Bool.and_false]

/-- Two words have the same bits under a field's mask when the field has the same value in them. -/
theorem and_fieldMask_eq_iff {lo n : Nat} (h : lo + n ≤ 16) (w w' : Word) :
    w &&& fieldMask lo n = w' &&& fieldMask lo n ↔ w.extractLsb' lo n = w'.extractLsb' lo n := by
  rw [← place_extractLsb', ← place_extractLsb']
  constructor
  · intro he
    rw [← extractLsb'_place_self h (w.extractLsb' lo n), he, extractLsb'_place_self h]
  · exact congrArg _

/-- Words that agree under a mask agree under every part of it. -/
theorem and_eq_and_of_part {w w' m a : Word} (ha : m &&& a = a) (h : w &&& m = w' &&& m) : w &&& a = w' &&& a := by
  rw [← ha, ← BitVec.and_assoc, h, BitVec.and_assoc]

/-- To agree under two masks joined is to agree under both. -/
theorem and_or_eq_and_or_iff (w w' a b : Word) :
    w &&& (a ||| b) = w' &&& (a ||| b) ↔ w &&& a = w' &&& a ∧ w &&& b = w' &&& b := by
  have ha : (a ||| b) &&& a = a := by ext k; simp +contextual
  have hb : (a ||| b) &&& b = b := by ext k; simp +contextual
  constructor
  · exact fun h => ⟨and_eq_and_of_part ha h, and_eq_and_of_part hb h⟩
  · rintro ⟨ha, hb⟩
    rw [BitVec.and_or_distrib_left, ha, hb, ← BitVec.and_or_distrib_left]

/-- A field of one bit is that bit. -/
theorem extractLsb'_one_eq_iff (lo : Nat) (w : Word) (f : BitVec 1) :
    w.extractLsb' lo 1 = f ↔ w.getLsbD lo = f.getLsbD 0 := by
  rw [BitVec.getLsbD_eq_extractLsb']
  generalize w.extractLsb' lo 1 = g
  revert f g
  decide

/-! ### The operands in a word (30 R101, R105) -/

/-- The word holds the instruction's mode bit and operands where the decoder reads them. -/
def HoldsOperands (w : Word) : Instr → Prop
  | .br n z p off => fieldN w = n ∧ fieldZ w = z ∧ fieldP w = p ∧ fieldPCoffset9 w = off
  | .addReg dr sr1 sr2 | .andReg dr sr1 sr2 =>
    fieldDR w = dr ∧ fieldSR1 w = sr1 ∧ fieldImmFlag w = false ∧ fieldSR2 w = sr2
  | .addImm dr sr1 imm | .andImm dr sr1 imm =>
    fieldDR w = dr ∧ fieldSR1 w = sr1 ∧ fieldImmFlag w = true ∧ fieldImm5 w = imm
  | .not dr sr1 => fieldDR w = dr ∧ fieldSR1 w = sr1
  | .ld dr off | .ldi dr off | .lea dr off => fieldDR w = dr ∧ fieldPCoffset9 w = off
  | .st sr off | .sti sr off => fieldSR w = sr ∧ fieldPCoffset9 w = off
  | .ldr dr base off => fieldDR w = dr ∧ fieldBaseR w = base ∧ fieldOffset6 w = off
  | .str sr base off => fieldSR w = sr ∧ fieldBaseR w = base ∧ fieldOffset6 w = off
  | .jsr off => fieldLongFlag w = true ∧ fieldPCoffset11 w = off
  | .jsrr base => fieldLongFlag w = false ∧ fieldJumpR w = base
  | .jmp base => fieldJumpR w = base
  | .rti | .res => True
  | .trap v => fieldTrapvect8 w = v
  | .getc => fieldTrapvect8 w = params.tvGetc
  | .out => fieldTrapvect8 w = params.tvOut
  | .puts => fieldTrapvect8 w = params.tvPuts
  | .inp => fieldTrapvect8 w = params.tvIn
  | .putsp => fieldTrapvect8 w = params.tvPutsp
  | .halt => fieldTrapvect8 w = params.tvHalt

/-- A word agrees with an instruction's own word on the examined bits when it holds that instruction's opcode and
operands. -/
theorem examined_eq_encode_iff (w : Word) (i : Instr) :
    w &&& examinedBits i = encode i &&& examinedBits i ↔
      fieldOpcode w = opcodeBits i.opcode ∧ HoldsOperands w i := by
  have hop : w.extractLsb' 12 4 = (encode i).extractLsb' 12 4 ↔ fieldOpcode w = opcodeBits i.opcode := by
    rw [← fieldOpcode_encode]; rfl
  simp only [examinedBits]
  rw [and_or_eq_and_or_iff, and_fieldMask_eq_iff (by decide), hop]
  refine and_congr_right fun _ => ?_
  cases i <;>
    simp [HoldsOperands, and_or_eq_and_or_iff, and_fieldMask_eq_iff, extractLsb'_one_eq_iff, encode, encodeLow,
      BitVec.extractLsb'_or, extractLsb'_place_self, extractLsb'_place_of_disjoint, and_assoc,
      params, fieldPositions, fieldN, fieldZ, fieldP, fieldDR, fieldSR, fieldSR1, fieldSR2, fieldBaseR, fieldJumpR,
      fieldImmFlag, fieldLongFlag, fieldImm5, fieldOffset6, fieldPCoffset9, fieldPCoffset11, fieldTrapvect8]

/-! ### The rows of TRAP (30 R109) -/

/-- The instruction is the row of the table that a TRAP word with this vector has. -/
inductive TrapRow : Byte → Instr → Prop
  | getc : TrapRow params.tvGetc .getc
  | out : TrapRow params.tvOut .out
  | puts : TrapRow params.tvPuts .puts
  | inp : TrapRow params.tvIn .inp
  | putsp : TrapRow params.tvPutsp .putsp
  | halt : TrapRow params.tvHalt .halt
  | generic {v : Byte} (h : isServiceVector v = false) : TrapRow v (.trap v)

/-- The decoder answers a vector's row. -/
theorem trapRow_decodeTrap (v : Byte) : TrapRow v (decodeTrap v) := by
  by_cases h : isServiceVector v = true
  · simp only [isServiceVector, Bool.or_eq_true, beq_iff_eq] at h
    obtain ((((rfl | rfl) | rfl) | rfl) | rfl) | rfl := h
    exacts [.getc, .out, .puts, .inp, .putsp, .halt]
  · rw [Bool.not_eq_true] at h
    exact decodeTrap_of_not_service h ▸ .generic h

/-- A vector has one row. -/
theorem TrapRow.decodeTrap_eq {v : Byte} {i : Instr} (h : TrapRow v i) : decodeTrap v = i := by
  cases h
  case generic h => exact decodeTrap_of_not_service h
  all_goals rfl

/-- The rows of TRAP are well-formed. -/
theorem TrapRow.wf {v : Byte} {i : Instr} (h : TrapRow v i) : i.wf = true := by
  cases h
  case generic h => rw [Instr.wf, h, Bool.not_false]
  all_goals rfl

/-- The rows of TRAP share its opcode. -/
theorem TrapRow.opcode {v : Byte} {i : Instr} (h : TrapRow v i) : i.opcode = .trap := by cases h <;> rfl

/-- A word with a row's vector holds all that the row has for operands. -/
theorem TrapRow.holdsOperands {w : Word} {v : Byte} {i : Instr} (h : TrapRow v i) (hv : fieldTrapvect8 w = v) :
    HoldsOperands w i := by
  cases h <;> exact hv

/-- A well-formed instruction with TRAP's opcode is the row of the vector it holds. -/
theorem trapRow_of_holdsOperands {w : Word} {i : Instr} (hi : i.wf = true) (hop : i.opcode = .trap)
    (h : HoldsOperands w i) : TrapRow (fieldTrapvect8 w) i := by
  cases i
  case trap v =>
    obtain rfl : fieldTrapvect8 w = v := h
    exact .generic (Bool.not_eq_true' _ ▸ hi)
  case getc => exact h ▸ .getc
  case out => exact h ▸ .out
  case puts => exact h ▸ .puts
  case inp => exact h ▸ .inp
  case putsp => exact h ▸ .putsp
  case halt => exact h ▸ .halt
  all_goals cases hop

/-! ### What a word decodes to (30 R113) -/

/-- Every word decodes to a well-formed instruction. -/
theorem wf_decode (w : Word) : (decode w).wf = true := by
  rw [decode]
  cases opcodeOf (fieldOpcode w)
  case trap => exact (trapRow_decodeTrap _).wf
  case add | jsr | and => dsimp only; split <;> rfl
  all_goals rfl

/-- The decoded instruction has the opcode that the word names. -/
theorem opcode_decode (w : Word) : (decode w).opcode = opcodeOf (fieldOpcode w) := by
  rw [decode]
  cases opcodeOf (fieldOpcode w)
  case trap => exact (trapRow_decodeTrap _).opcode
  case add | jsr | and => dsimp only; split <;> rfl
  all_goals rfl

/-- A word holds the operands of what it decodes to. -/
theorem holdsOperands_decode (w : Word) : HoldsOperands w (decode w) := by
  rw [decode]
  cases opcodeOf (fieldOpcode w)
  case trap => exact (trapRow_decodeTrap _).holdsOperands rfl
  case add | jsr | and => dsimp only; split <;> simp_all [HoldsOperands]
  all_goals simp [HoldsOperands]

/-- A word that holds a well-formed instruction's opcode and operands decodes to it. -/
theorem decode_of_holdsOperands {w : Word} {i : Instr} (hi : i.wf = true) (hop : fieldOpcode w = opcodeBits i.opcode)
    (h : HoldsOperands w i) : decode w = i := by
  rw [decode, hop, opcodeOf_opcodeBits]
  cases i
  case trap | getc | out | puts | inp | putsp | halt => exact (trapRow_of_holdsOperands hi rfl h).decodeTrap_eq
  case rti | res => rfl
  all_goals
    simp only [HoldsOperands] at h
    simp [Instr.opcode, h]

/-- What a word decodes to, by its opcode and operands. -/
theorem decode_eq_iff_holdsOperands {w : Word} {i : Instr} (hi : i.wf = true) :
    decode w = i ↔ fieldOpcode w = opcodeBits i.opcode ∧ HoldsOperands w i := by
  constructor
  · rintro rfl
    exact ⟨by rw [opcode_decode, opcodeBits_opcodeOf], holdsOperands_decode w⟩
  · rintro ⟨hop, h⟩
    exact decode_of_holdsOperands hi hop h

/-- What a word decodes to, by its examined bits. -/
theorem decode_eq_iff_examined {w : Word} {i : Instr} (hi : i.wf = true) :
    decode w = i ↔ w &&& examinedBits i = encode i &&& examinedBits i := by
  rw [decode_eq_iff_holdsOperands hi, examined_eq_encode_iff]

/-- Settles O1: an instruction's own word agrees with itself on the examined bits. -/
theorem decodeOfEncodeIsIdentity : Obligations.DecodeOfEncodeIsIdentity := fun _ hi =>
  (decode_eq_iff_examined hi).2 rfl

/-- Settles O2: a word agrees on the examined bits with the encoding of what it decodes to. -/
theorem decodedInstructionsReencode : Obligations.DecodedInstructionsReencode := fun w =>
  ⟨wf_decode w, ((decode_eq_iff_examined (wf_decode w)).1 rfl).symm⟩

/-- Settles O3: the second word agrees, through the first, with the encoding of what the first one decodes to. -/
theorem ignoredBitsDoNotMatter : Obligations.IgnoredBitsDoNotMatter := fun w _ h =>
  (decode_eq_iff_examined (wf_decode w)).2 (h.symm.trans ((decode_eq_iff_examined (wf_decode w)).1 rfl))

/-! ### The illegal encodings (30 R107) -/

/-- The words with one opcode are a range of 4096. -/
theorem fieldOpcode_eq_iff (w : Word) (b : BitVec 4) :
    fieldOpcode w = b ↔ 4096 * b.toNat ≤ w.toNat ∧ w.toNat ≤ 4096 * b.toNat + 4095 := by
  have hw : w.toNat < 65536 := w.isLt
  rw [← BitVec.toNat_inj, fieldOpcode, BitVec.extractLsb'_toNat, Nat.shiftRight_eq_div_pow]
  omega

/-- Settles O5: RTI and RES have no operands, so the opcode alone decides. -/
theorem illegalWordsAreTwoRanges : Obligations.IllegalWordsAreTwoRanges := by
  intro w
  have hrti : decode w = .rti ↔ 0x8000 ≤ w.toNat ∧ w.toNat ≤ 0x8FFF := by
    rw [decode_eq_iff_holdsOperands rfl, fieldOpcode_eq_iff]
    exact and_iff_left trivial
  have hres : decode w = .res ↔ 0xD000 ≤ w.toNat ∧ w.toNat ≤ 0xDFFF := by
    rw [decode_eq_iff_holdsOperands rfl, fieldOpcode_eq_iff]
    exact and_iff_left trivial
  rw [hrti, hres]

end Sys2Proof.Machine
end

section
/-! The statements about the cycle (spec 40_cycle.md): what a step is when the core fetches and when it has stopped,
which placed word it fetches, the string call that never completes, and the run that has ended. -/

namespace Sys2Proof.Machine

/-! ### The fetch (40_cycle.md R131) -/

/-- Settles O15: a RUNNING core with no call in progress fetches, and the increment is that of a word. -/
theorem stepFetchesIncrementsAndRunsTheDecodedInstruction :
    Obligations.StepFetchesIncrementsAndRunsTheDecodedInstruction := by
  rintro s i hr ha rfl
  exact ⟨step_of_idle hr ha, BitVec.toNat_add s.pc 1#16⟩

/-! ### The stopped core (40 R130; 60_exceptions.md R210) -/

/-- A core that is not RUNNING does not fetch. -/
theorem step_of_not_running {s : State} (hr : s.rs ≠ .running) : step s = s.withoutFetch :=
  if_neg fun hf => hr (s.canFetch_iff.1 hf).1

/-- Settles O16: neither stopped core fetches; the one answers itself, the other its fault. -/
theorem stoppedCoreTakesNoStep : Obligations.StoppedCoreTakesNoStep := by
  refine fun s => ⟨fun hr => ?_, fun hr => ?_⟩
  · rw [step_of_not_running (by simp [hr]), State.withoutFetch, hr]
  · rw [step_of_not_running (by simp [hr]), State.withoutFetch, hr, State.offendingWord]

/-! ### The placed word (R131; 30_encoding.md R100) -/

/-- A word of the machine's own width is placed as it is. -/
theorem State.withFetchWord_toNat (s : State) (w : Word) : s.withFetchWord 16 w.toNat = s.placeWord w := by
  rw [State.withFetchWord, Nat.mod_eq_of_lt w.isLt, BitVec.ofNat_toNat, BitVec.setWidth_eq]

/-- Away from the status cell the placed word is the one the fetch reads. -/
theorem State.fetchedWord_placeWord {s : State} (w : Word) (hm : s.mem.wf = true) (hpc : s.pc ≠ params.kbsrAddr) :
    (s.placeWord w).fetchedWord = w :=
  (State.fetchedWord_of_ne (s := s.placeWord w) hpc).trans (State.cell_setCell_same s.pc w hm)

/-- Placing a word changes its cell, and of the rest only whether the core can fetch. -/
theorem State.placeWord_frame (s : State) (w : Word) :
    SameCellsExcept [s.pc] s (s.placeWord w) ∧ (s.placeWord w).regs = s.regs ∧ (s.placeWord w).cond = s.cond ∧
      (s.placeWord w).pc = s.pc ∧ SameDevices s (s.placeWord w) :=
  ⟨fun _ hb => State.cell_setCell_ne w (by simpa using hb), rfl, rfl, rfl, rfl, rfl⟩

/-- Settles O57: the placed word's fetch is plain, and the core is able to fetch. -/
theorem placedWordRunsNext : Obligations.PlacedWordRunsNext := by
  intro s w hm hpc
  rw [State.withFetchWord_toNat]
  refine ⟨?_, s.placeWord_frame w⟩
  rw [step_of_idle (s := s.placeWord w) rfl rfl, State.fetchedWord_placeWord w hm hpc,
    State.afterFetch_of_ne (s := s.placeWord w) hpc]
  rfl

/-! ### The string call without end (40 R135; 45_trap.md R183, R185) -/

/-- What a string call in progress sends for one cell. -/
def stringBytes (a : Activity) : Word → List Byte := if a = .puts then putsBytes else putspBytes

/-- The cells of one lap of the memory, from the cell R0 names. -/
def State.lapCells (s : State) : List Word := (List.range memCells).map fun j => s.cell (s.reg 0#3 + BitVec.ofNat 16 j)

/-- What a string call in progress sends in one lap of the memory. -/
def State.lap (s : State) : List ConEvent := putEvents (s.lapCells.flatMap (stringBytes s.activity))

/-- A string call sends at least one byte for each cell. -/
theorem one_le_length_stringBytes (a : Activity) (w : Word) : 1 ≤ (stringBytes a w).length := by
  unfold stringBytes
  split
  · exact le_rfl
  · unfold putspBytes
    split <;> simp

/-- What is sent for some cells is at least as long as they are many, if something is sent for each. -/
theorem length_le_length_flatMap {f : Word → List Byte} (hf : ∀ w, 1 ≤ (f w).length) (ws : List Word) :
    ws.length ≤ (ws.flatMap f).length := by
  rw [List.length_flatMap]
  simpa only [List.length_map] using List.length_le_sum_of_one_le (ws.map fun w => (f w).length) (by simp [hf])

/-- A lap has a character for each cell of the memory. -/
theorem State.le_length_lap (s : State) : memCells ≤ s.lap.length := by
  have hcells : s.lapCells.length = memCells := by rw [State.lapCells, List.length_map, List.length_range]
  rw [State.lap, putEvents, List.length_map, ← hcells]
  exact length_le_length_flatMap (one_le_length_stringBytes s.activity) s.lapCells

/-- A lap has no flush. -/
theorem State.flush_not_mem_lap (s : State) : ConEvent.flush ∉ s.lap := by simp [State.lap, putEvents]

/-- What has been sent does not matter to the next lap. -/
theorem State.lap_emit (s : State) (es : List ConEvent) : (s.emit es).lap = s.lap := rfl

/-- In a memory without a zero cell the scan of a string sees every cell and no end. -/
theorem State.scanString_of_no_zero {s : State} (h : ∀ a, s.cell a ≠ 0x0000#16) :
    s.mem.scanString memCells (s.reg 0#3) = (s.lapCells, false) :=
  Memory.scanString_not_found s.mem memCells (s.reg 0#3) fun _ _ => h _

/-- A string call that goes on in a memory without a zero cell sends a lap and changes nothing else. -/
theorem State.resumeService_of_no_zero {s : State} (ha : s.activity = .puts ∨ s.activity = .putsp)
    (h : ∀ a, s.cell a ≠ 0x0000#16) : s.resumeService = s.emit s.lap := by
  rw [← State.setActivity_self (s := s.emit s.lap) (a := s.activity) rfl]
  rcases ha with ha | ha <;>
    simp only [State.resumeService, State.servicePuts, State.servicePutsp, State.lap, ha,
      State.scanString_of_no_zero h] <;>
    rfl

/-- The TRAP of PUTS, or of PUTSP, has been entered and its call has sent nothing yet. -/
def State.inStringCall (s : State) (i : Instr) : State :=
  s.enterTrap.setActivity (if i = .puts then .puts else .putsp)

theorem State.inStringCall_activity (s : State) (i : Instr) :
    (s.inStringCall i).activity = .puts ∨ (s.inStringCall i).activity = .putsp :=
  ite_eq_or_eq ..

/-- PUTS and PUTSP begin as they go on. -/
theorem exec_of_string_call {i : Instr} (hi : i = .puts ∨ i = .putsp) (s : State) :
    exec i s = .next (s.inStringCall i).resumeService := by
  rcases hi with rfl | rfl <;> rfl

/-- A run whose first step answers a next state goes on from there. -/
theorem run_succ_of_step {M : Host.Core} {s t : M.State} (h : M.step s = .next t) (n : Nat) :
    M.run (n + 1) s = M.run n t := by
  rw [Host.Core.run, h]

/-- Any number of steps of a string call in a memory without a zero cell: a lap each. -/
theorem run_of_no_zero {s : State} (hr : s.rs = .running) (ha : s.activity = .puts ∨ s.activity = .putsp)
    (h : ∀ a, s.cell a ≠ 0x0000#16) (n : Nat) (es : List ConEvent) :
    core.run n (s.emit es) = .next (s.emit (es ++ (List.replicate n s.lap).flatten)) := by
  induction n generalizing es with
  | zero => rw [List.replicate_zero, List.flatten_nil, List.append_nil]; rfl
  | succ n ih =>
    have hidle : s.activity ≠ .idle := by rcases ha with ha | ha <;> simp [ha]
    have hstep : step (s.emit es) = .next (s.emit (es ++ s.lap)) := by
      rw [step_of_in_progress (s := s.emit es) hr hidle, State.resumeService_of_no_zero (s := s.emit es) ha h,
        State.lap_emit, State.emit_emit]
    calc core.run (n + 1) (s.emit es)
      _ = core.run n (s.emit (es ++ s.lap)) := run_succ_of_step (M := core) hstep n
      _ = .next (s.emit (es ++ (List.replicate (n + 1) s.lap).flatten)) := by
        rw [ih, List.append_assoc, List.replicate_succ, List.flatten_cons]

/-- Settles O39: the call and every step after it send one lap from the state that the TRAP entered. -/
theorem unterminatedStringNeverCompletes : Obligations.UnterminatedStringNeverCompletes := by
  intro s i hi hr h
  have ha := s.inStringCall_activity i
  refine ⟨(s.inStringCall i).emit (s.inStringCall i).lap, (s.inStringCall i).lap, ?_, State.le_length_lap _,
    State.flush_not_mem_lap _, s.reg_setReg_same _ _, fun r h7 => s.reg_setReg_ne _ (by simpa using h7),
    fun n => ⟨_, run_of_no_zero (s := s.inStringCall i) hr ha h n _, hr, rfl, ?_, rfl, rfl, rfl, rfl, rfl⟩⟩
  · rw [exec_of_string_call hi, State.resumeService_of_no_zero ha h]
  · rw [State.emit_regs, State.emit_regs]

/-! ### The end of a run (40 R136; 15_interfaces.md R56) -/

/-- A run that has ended is observed by its record, the characters it took, and its final state. -/
theorem System.observe_of_ended {y : System} (hp : y.phase = .started) (hr : y.core.rs ≠ .running) :
    y.observe =
      { output := y.core.out
        taken := y.taken
        final := some ⟨y.core.rs, y.core.regs, y.core.pc, y.core.cond, y.core.mem⟩ } := by
  have hread : y.readout = some y.core := if_pos (by simp [hp, State.runningOut, hr])
  rw [System.observe, hread, Option.map_some]

/-- Of the events but a reset, only a key can come after the end of a run. -/
theorem System.react_of_ended {y z : System} {e : HostEvent} (hp : y.phase = .started) (hr : y.core.rs ≠ .running)
    (he : ∀ n, e ≠ .reset n) (h : y.react e = some z) : ∃ c, z = { y with core := y.core.keyArrives c } := by
  have hload : y.phase ≠ .loading := by simp [hp]
  rcases System.react_cases h with ⟨n, hn, -⟩ | ⟨a, v, -, hl, -⟩ | ⟨-, hl, -⟩ | ⟨c, -, hz⟩ | ⟨t, -, -, hr', -, -⟩ |
    ⟨n, -, hl | ⟨-, hr'⟩, -⟩
  · exact absurd hn (he n)
  · exact absurd hl hload
  · exact absurd hl hload
  · exact ⟨c, hz⟩
  · exact absurd hr' hr
  · exact absurd hl hload
  · exact absurd hr' hr

/-- Settles O59: the only event left is a key, and pending characters are not observed. -/
theorem endedRunKeepsItsFinalState : Obligations.EndedRunKeepsItsFinalState := by
  intro y z e hp hr he h
  obtain ⟨c, rfl⟩ := System.react_of_ended hp hr he h
  rw [System.observe_of_ended hp hr, System.observe_of_ended (y := { y with core := y.core.keyArrives c }) hp hr]
  exact ⟨rfl, rfl, rfl, rfl⟩

end Sys2Proof.Machine
end

section
/-! The statements about arithmetic and logic (spec 41_alu.md): each instruction is one `writeResult`, so what is left to
each is the value. -/

namespace Sys2Proof.Machine

/-! ### The end of a flag-setting instruction (10_state.md R21, R28, R29) -/

/-- DR reads the value that was written. -/
theorem State.writeResult_reg_same (s : State) (r : Reg) (v : Word) : (s.writeResult r v).reg r = v :=
  s.reg_setReg_same r v

/-- The flags are those of the written value (10 R28). -/
theorem State.writeResult_flagsFor (s : State) (r : Reg) (v : Word) :
    FlagsFor ((s.writeResult r v).reg r) (s.writeResult r v).cond := by
  rw [State.writeResult_reg_same, State.writeResult_cond]
  exact flagsFor_condOf v

/-- DR and the flags are all that is written. -/
theorem State.writeResult_registerOnly (s : State) (r : Reg) (v : Word) : RegisterOnly [r] s (s.writeResult r v) :=
  ⟨fun _ hk => s.reg_setReg_ne v (by simpa using hk), rfl, fun _ _ => rfl, ⟨rfl, rfl⟩, rfl, rfl⟩

/-- An instruction that ends with `writeResult` answers a next state, with the value in DR, its flags, and nothing else
changed. -/
theorem exec_of_writeResult {i : Instr} {s : State} {dr : Reg} {v : Word} (h : exec i s = .next (s.writeResult dr v)) :
    ∃ t, exec i s = .next t ∧ t.reg dr = v ∧ FlagsFor (t.reg dr) t.cond ∧ RegisterOnly [dr] s t :=
  ⟨_, h, s.writeResult_reg_same dr v, s.writeResult_flagsFor dr v, s.writeResult_registerOnly dr v⟩

/-! ### ADD, AND and NOT (41_alu.md R140 to R144) -/

/-- Above a field's own bits its sign extension repeats the top one (00_scope.md R8). -/
theorem getLsbD_sext {n : Nat} (f : BitVec n) {k : Nat} (hk : k < 16) :
    (sext f).getLsbD k = f.getLsbD (min k (n - 1)) := by
  rw [sext, BitVec.getLsbD_signExtend, decide_eq_true hk, Bool.true_and]
  split
  case isTrue hkn => rw [Nat.min_eq_left (by omega)]
  case isFalse hkn => rw [Nat.min_eq_right (by omega), BitVec.msb_eq_getLsbD_last]

/-- A word has no bits past those of a sign extension, so the AND with one is the field's bits throughout. -/
theorem getLsbD_and_sext {n : Nat} (v : Word) (f : BitVec n) (k : Nat) :
    (v &&& sext f).getLsbD k = (v.getLsbD k && f.getLsbD (min k (n - 1))) := by
  rw [BitVec.getLsbD_and]
  by_cases hk : k < 16
  · rw [getLsbD_sext f hk]
  · rw [BitVec.getLsbD_of_ge v k (by omega), Bool.false_and, Bool.false_and]

/-- Settles O20: the register form adds as words do, the immediate form adds a sign extension. -/
theorem addWritesTheWrappedSum : Obligations.AddWritesTheWrappedSum := by
  constructor
  · intro s dr sr1 sr2
    obtain ⟨t, ht, hsum, hrest⟩ := exec_of_writeResult (i := .addReg dr sr1 sr2) (s := s) rfl
    exact ⟨t, ht, by rw [hsum, BitVec.toNat_add], hrest⟩
  · intro s dr sr1 imm
    obtain ⟨t, ht, hsum, hrest⟩ := exec_of_writeResult (i := .addImm dr sr1 imm) (s := s) rfl
    exact ⟨t, ht, by rw [hsum, add_sext], hrest⟩

/-- Settles O21: each bit of the result is that of the operands, the immediate's by its sign extension. -/
theorem andWritesTheBitwiseAnd : Obligations.AndWritesTheBitwiseAnd := by
  constructor
  · intro s dr sr1 sr2
    obtain ⟨t, ht, hand, hrest⟩ := exec_of_writeResult (i := .andReg dr sr1 sr2) (s := s) rfl
    exact ⟨t, ht, fun k => by rw [hand, BitVec.getLsbD_and], hrest⟩
  · intro s dr sr1 imm
    obtain ⟨t, ht, hand, hrest⟩ := exec_of_writeResult (i := .andImm dr sr1 imm) (s := s) rfl
    exact ⟨t, ht, fun k => by rw [hand, getLsbD_and_sext], hrest⟩

/-- Settles O22: the complement of a word is what the word lacks of the greatest one. -/
theorem notWritesTheComplement : Obligations.NotWritesTheComplement := by
  intro s dr sr1
  obtain ⟨t, ht, hnot, hrest⟩ := exec_of_writeResult (i := .not dr sr1) (s := s) rfl
  exact ⟨t, ht, by rw [hnot, BitVec.toNat_not], hrest⟩

end Sys2Proof.Machine
end

section
/-! The statements about control transfer (spec 42_control.md): every transfer is a write of pc, after the link for JSR
and JSRR, so their frames are two; and the test of BR, as numbers and by flag. -/

namespace Sys2Proof.Machine

/-! ### The test of BR (42_control.md R150) -/

/-- The mask of BR as a number: n*4 + z*2 + p. -/
theorem condMask_toNat (n z p : Bool) : (condMask n z p).toNat = n.toNat * 4 + z.toNat * 2 + p.toNat := by
  decide +revert

/-- BR is taken if the numbers of its mask and of COND[2:0] have a bit in common. -/
theorem branchTaken_iff_toNat (n z p : Bool) (c : Word) :
    branchTaken n z p c = true ↔ (n.toNat * 4 + z.toNat * 2 + p.toNat) &&& (c.toNat % 8) ≠ 0 := by
  have hflags : (c.extractLsb' 0 3).toNat = c.toNat % 8 := by rw [BitVec.extractLsb'_toNat, Nat.shiftRight_zero]
  rw [branchTaken, bne_iff_ne, ne_eq, BitVec.toNat_eq, BitVec.toNat_and, condMask_toNat, hflags]
  rfl

/-- With the negative flag, n alone decides. -/
theorem branchTaken_flNeg (n z p : Bool) : branchTaken n z p params.flNeg = n := by decide +revert

/-- With the zero flag, z alone decides. -/
theorem branchTaken_flZro (n z p : Bool) : branchTaken n z p params.flZro = z := by decide +revert

/-- With the positive flag, p alone decides. -/
theorem branchTaken_flPos (n z p : Bool) : branchTaken n z p params.flPos = p := by decide +revert

/-- The empty mask has no bit in common with any COND, legal or not. -/
theorem branchTaken_empty_mask (c : Word) : branchTaken false false false c = false := by
  have hmask : condMask false false false = 0#3 := rfl
  rw [branchTaken, hmask, BitVec.zero_and]
  rfl

/-- A legal COND is one of the three flags (10_state.md R27). -/
theorem State.cond_of_condLegal {s : State} (h : s.condLegal = true) :
    s.cond = params.flNeg ∨ s.cond = params.flZro ∨ s.cond = params.flPos := by
  simp only [State.condLegal, Bool.or_eq_true, beq_iff_eq] at h
  tauto

/-- With COND legal, BR is taken if its mask holds the bit of the flag that is set. -/
theorem branchTaken_iff_of_condLegal {s : State} (hc : s.condLegal = true) (n z p : Bool) :
    branchTaken n z p s.cond = true ↔
      (n = true ∧ s.cond = params.flNeg) ∨ (z = true ∧ s.cond = params.flZro) ∨
        (p = true ∧ s.cond = params.flPos) := by
  obtain ⟨hpz, hpn, hzn⟩ := flags_distinct
  rcases State.cond_of_condLegal hc with h | h | h <;> rw [h]
  · simp [branchTaken_flNeg, hzn.symm, hpn.symm]
  · simp [branchTaken_flZro, hzn, hpz.symm]
  · simp [branchTaken_flPos, hpn, hpz]

/-- Settles O24: the flag that is set picks the mask bit; the full mask holds each of them. -/
theorem branchTruthTable : Obligations.BranchTruthTable := fun s n z p hc =>
  ⟨branchTaken_iff_of_condLegal hc n z p, branchTaken_empty_mask s.cond,
    (branchTaken_iff_of_condLegal hc true true true).2 (by simpa using State.cond_of_condLegal hc)⟩

/-! ### The transfers (42 R150 to R153) -/

/-- A write of pc leaves everything else. -/
theorem State.setPc_frame (s : State) (v : Word) :
    SameRegsExcept [] s (s.setPc v) ∧ (s.setPc v).cond = s.cond ∧ SameCellsExcept [] s (s.setPc v) ∧
      SameDevices s (s.setPc v) ∧ SameRun s (s.setPc v) :=
  ⟨fun _ _ => rfl, rfl, fun _ _ => rfl, ⟨rfl, rfl⟩, rfl, rfl⟩

/-- The state a call leaves: R7 holds the return address, then pc the target (R152, R153). -/
def State.linkTo (s : State) (v : Word) : State := (s.setReg 7#3 s.pc).setPc v

/-- A call links R7. -/
theorem State.linkTo_reg_link (s : State) (v : Word) : (s.linkTo v).reg 7#3 = s.pc := s.reg_setReg_same 7#3 s.pc

/-- A call writes R7 and pc only. -/
theorem State.linkTo_frame (s : State) (v : Word) :
    SameRegsExcept [7#3] s (s.linkTo v) ∧ (s.linkTo v).cond = s.cond ∧ SameCellsExcept [] s (s.linkTo v) ∧
      SameDevices s (s.linkTo v) ∧ SameRun s (s.linkTo v) :=
  ⟨fun _ hk => s.reg_setReg_ne s.pc (by simpa using hk), rfl, fun _ _ => rfl, ⟨rfl, rfl⟩, rfl, rfl⟩

/-- JSR links and goes to its target (R152). -/
theorem exec_jsr (off : BitVec 11) (s : State) : exec (.jsr off) s = .next (s.linkTo (wordPlus s.pc off.toInt)) := by
  rw [← add_sext]
  rfl

/-- JSRR links and goes to what its register holds then, which for R7 is the link (R153). -/
theorem exec_jsrr (base : Reg) (s : State) :
    exec (.jsrr base) s = .next (s.linkTo (if base = 7#3 then s.pc else s.reg base)) := by
  rw [← State.reg_setReg]
  rfl

/-- BR, taken or not, is a write of pc; not taken, of the pc it had. -/
theorem exec_br (n z p : Bool) (off : BitVec 9) (s : State) :
    exec (.br n z p off) s = .next (s.setPc (if branchTaken n z p s.cond then wordPlus s.pc off.toInt else s.pc)) := by
  rw [← add_sext, apply_ite s.setPc]
  rfl

/-- Settles O23: BR writes pc alone, and its test is the one on the numbers. -/
theorem branchFollowsMaskAndFlags : Obligations.BranchFollowsMaskAndFlags := fun s n z p off =>
  ⟨_, exec_br n z p off s, by simp only [State.setPc_pc, branchTaken_iff_toNat], s.setPc_frame _⟩

/-- Settles O25: JMP is a write of pc. -/
theorem jumpGoesToTheRegister : Obligations.JumpGoesToTheRegister := fun s base =>
  ⟨_, rfl, rfl, s.setPc_frame (s.reg base)⟩

/-- Settles O26: both calls link R7 and then write pc; JSRR reads its register from the linked state. -/
theorem callsLinkR7BeforeTheTransfer : Obligations.CallsLinkR7BeforeTheTransfer := by
  constructor
  · intro s off
    exact ⟨_, exec_jsr off s, s.linkTo_reg_link _, rfl, s.linkTo_frame _⟩
  · intro s base
    exact ⟨_, exec_jsrr base s, s.linkTo_reg_link _, fun h => if_neg h, fun h => if_pos h, s.linkTo_frame _⟩

end Sys2Proof.Machine
end

section
/-! The statements about the loads (spec 43_load.md): every load ends with one `loadFrom`, so what one `loadFrom` does is
said once, for LD and LDR from the state itself and for LDI from the state the pointer read left. -/

namespace Sys2Proof.Machine

/-! ### Addresses (43_load.md R164) -/

/-- Settles O10: each address is a word plus a sign extension. -/
theorem addressesWrapModulo65536 : Obligations.AddressesWrapModulo65536 := fun s =>
  ⟨fun off => add_sext s.pc off, fun off => add_sext s.pc off, fun base off => add_sext (s.reg base) off⟩

/-! ### Reads (20_memory.md R71, R81) -/

/-- A read rewrites the cells it polls and no other. -/
theorem State.readEffect_sameCells (s : State) (a : Word) : SameCellsExcept (cellsPolledAt a) s (s.readEffect a) := by
  rcases s.readEffect_cases a with ⟨-, h⟩ | ⟨rfl, h⟩ <;> rw [h]
  · exact fun _ _ => rfl
  · rw [cellsPolledAt, if_pos rfl]
    exact s.pollKeyboard_sameCells

/-- Of two changes one after the other, the cells either may rewrite are the ones that can differ. -/
theorem SameCellsExcept.append {as bs : List Word} {s t u : State} (hst : SameCellsExcept as s t)
    (htu : SameCellsExcept bs t u) : SameCellsExcept (as ++ bs) s u := fun a ha => by
  obtain ⟨has, hbs⟩ : a ∉ as ∧ a ∉ bs := by simpa using ha
  exact (htu a hbs).trans (hst a has)

/-! ### LD, LDR and LDI (43 R160 to R162) -/

/-- A load is the read's effect and then a flag-setting write of the cell that was read. -/
theorem State.loadFrom_eq (s : State) (dr : Reg) (ea : Word) :
    s.loadFrom dr ea = (s.readEffect ea).writeResult dr ((s.readEffect ea).cell ea) := rfl

/-- DR and the flags come from the write, memory and input from the read, and neither touches anything else. -/
theorem State.loadFrom_loadsFrom (s : State) (dr : Reg) (ea : Word) : LoadsFrom dr ea s (s.loadFrom dr ea) := by
  rw [State.loadFrom_eq]
  obtain ⟨hregs, hpc, -, ⟨hkbd, hout⟩, hrs, hact⟩ :=
    (s.readEffect ea).writeResult_registerOnly dr ((s.readEffect ea).cell ea)
  exact ⟨State.writeResult_reg_same _ _ _, State.writeResult_flagsFor _ _ _,
    fun r hr => (hregs r hr).trans (s.readEffect_reg ea r), hpc.trans (s.readEffect_pc ea), rfl,
    s.readEffect_sameCells ea, hkbd, fun hne => by rw [hkbd, State.readEffect_of_ne hne],
    hout.trans (s.readEffect_out ea), hrs.trans (s.readEffect_rs ea), hact.trans (s.readEffect_activity ea)⟩

/-- Settles O27: both forms are one load, each from its own address. -/
theorem loadsReadOneCell : Obligations.LoadsReadOneCell :=
  ⟨fun s dr off => ⟨_, rfl, s.loadFrom_loadsFrom dr (s.pcRel9 off)⟩,
    fun s dr base off => ⟨_, rfl, s.loadFrom_loadsFrom dr (s.baseOffset base off)⟩⟩

/-- LDI is a load from the pointer in the state that the pointer read left (R161; 20 R85). -/
theorem exec_ldi {s u : State} {ea : Word} {off : BitVec 9} (dr : Reg) (h : s.memRead (s.pcRel9 off) = (ea, u)) :
    exec (.ldi dr off) s = .next (u.loadFrom dr ea) := by
  rw [exec, execLdi, State.indirect, h]

/-- Settles O28: the frame of the load from the pointer, after the frame of the pointer read. -/
theorem loadIndirectIsTwoChainedReads : Obligations.LoadIndirectIsTwoChainedReads := by
  intro s dr off ea u hread
  obtain ⟨-, -, hregs, hpc, -, hcells, -, hkbd, hout, hrs, hact⟩ := u.loadFrom_loadsFrom dr ea
  refine ⟨_, exec_ldi dr hread, u.loadFrom_loadsFrom dr ea, ?_⟩
  obtain rfl : s.readEffect (s.pcRel9 off) = u := congrArg Prod.snd hread
  exact ⟨fun r hr => (hregs r hr).trans (s.readEffect_reg _ r), hpc.trans (s.readEffect_pc _),
    (s.readEffect_sameCells _).append hcells,
    fun ⟨hptr, hea⟩ => by rw [hkbd hea, State.readEffect_of_ne hptr],
    hout.trans (s.readEffect_out _), hrs.trans (s.readEffect_rs _), hact.trans (s.readEffect_activity _)⟩

/-! ### LEA (43 R163) -/

/-- Settles O29: LEA writes its address as the arithmetic instructions write their results, without a read. -/
theorem leaWritesTheAddress : Obligations.LeaWritesTheAddress := by
  intro s dr off
  obtain ⟨t, ht, haddr, hrest⟩ := exec_of_writeResult (i := .lea dr off) (s := s) rfl
  exact ⟨t, ht, by rw [haddr, State.pcRel9, add_sext], hrest⟩

end Sys2Proof.Machine
end

section
/-! The statements about the stores (spec 44_store.md): every store ends with one `memWrite`, whose effect and frame O12
states at every address; STI's is the one from the state the pointer read left. -/

namespace Sys2Proof.Machine

/-- Settles O30: each form is one write of memory, at its own address. -/
theorem storesWriteOneCell : Obligations.StoresWriteOneCell := fun s hm =>
  ⟨fun sr off => ⟨_, rfl, memWriteStoresAtEveryAddress s (s.pcRel9 off) (s.reg sr) hm⟩,
    fun sr base off => ⟨_, rfl, memWriteStoresAtEveryAddress s (s.baseOffset base off) (s.reg sr) hm⟩⟩

/-- Settles O31: the frame of the write at the pointer, after the frame of the pointer read. -/
theorem storeIndirectReadsThenStores : Obligations.StoreIndirectReadsThenStores := by
  intro s sr off ea u hm hread
  obtain rfl : s.readEffect (s.pcRel9 off) = u := congrArg Prod.snd hread
  have hsti : exec (.sti sr off) s = .next ((s.readEffect (s.pcRel9 off)).memWrite ea (s.reg sr)) :=
    exec_of_store rfl (by rw [storeAddress, State.indirect, hread])
  have hstore := memWriteStoresAtEveryAddress _ ea (s.reg sr) (State.readEffect_wf (s.pcRel9 off) hm)
  refine ⟨_, hsti, hstore, ?_⟩
  obtain ⟨-, hcells, hregs, hcond, hpc, ⟨hkbd, hout⟩, hrs, hact⟩ := hstore
  have hchanged := (s.readEffect_sameCells (s.pcRel9 off)).append hcells
  exact ⟨fun r hr => (hregs r hr).trans (s.readEffect_reg _ r), hcond.trans (s.readEffect_cond _),
    hpc.trans (s.readEffect_pc _), fun a ha => hchanged a (by simpa [or_comm] using ha),
    fun hptr => hkbd.trans (congrArg State.kbd (State.readEffect_of_ne hptr)),
    hout.trans (s.readEffect_out _), hrs.trans (s.readEffect_rs _), hact.trans (s.readEffect_activity _)⟩

end Sys2Proof.Machine
end

section
/-! The statements about TRAP and the service calls (spec 45_trap.md): every TRAP begins with one write of R7, whose frame O7
states; what a service does after it is a sequence of output events, a change of the run, or a character to R0. -/

namespace Sys2Proof.Machine

/-! ### Every TRAP (45_trap.md R180, R188, R189) -/

/-- The entry of a TRAP is a write of R7, and changes nothing else. -/
theorem State.enterTrap_frame (s : State) :
    s.enterTrap.reg 7#3 = s.pc ∧ SameRegsExcept [7#3] s s.enterTrap ∧ s.enterTrap.cond = s.cond ∧
      s.enterTrap.pc = s.pc ∧ SameCellsExcept [] s s.enterTrap ∧ SameDevices s s.enterTrap ∧ SameRun s s.enterTrap :=
  registerWriteChangesOneRegister s 7#3 s.pc

/-- A service finds in R0 what the program left there. -/
theorem State.enterTrap_reg_zero (s : State) : s.enterTrap.reg 0#3 = s.reg 0#3 := s.reg_setReg_ne s.pc (by decide)

/-- The generic TRAP does with every vector what the vector's row does (30_encoding.md R109). -/
theorem TrapRow.exec_eq {v : Byte} {i : Instr} (h : TrapRow v i) (s : State) : exec (.trap v) s = exec i s := by
  cases h <;> rfl

/-- No row of TRAP is a store. -/
theorem storeAddress_of_trap {i : Instr} (hi : i.opcode = .trap) (s : State) : storeAddress i s = none := by
  cases i
  case trap | getc | out | puts | inp | putsp | halt => rfl
  all_goals cases hi

/-- What a service does after the entry leaves every register but R0, pc and memory. -/
theorem exec_trap_after_entry {i : Instr} {s t : State} (hi : i.opcode = .trap) (h : exec i s = .next t) :
    SameRegsExcept [0#3] s.enterTrap t ∧ t.pc = s.pc ∧ t.mem = s.mem := by
  cases exec_effect h with
  | result dr v hf hw ho => exact absurd hi ho
  | store ea v hf ha => exact absurd ((storeAddress_of_trap hi s).symm.trans ha) nofun
  | jump v hf ho => rcases ho with ho | ho <;> exact absurd (hi.symm.trans ho) nofun
  | call v hf hw ho => exact absurd (hi.symm.trans ho) nofun
  | reserved hf hr => rcases hr with rfl | rfl <;> cases hi
  | await t hf hw ho ht => exact ⟨ht.sameRegs, ht.pc_eq, ht.mem_eq⟩
  | send t hf hw ho ht => obtain ⟨a, es, rfl⟩ := ht; exact ⟨fun _ _ => rfl, rfl, rfl⟩
  | halt es hf hw hh => exact ⟨fun _ _ => rfl, rfl, rfl⟩

/-- Every TRAP links R7 and leaves pc, every cell, and every register but R0 and R7. -/
theorem exec_trap_frame {i : Instr} {s t : State} (hi : i.opcode = .trap) (h : exec i s = .next t) :
    t.reg 7#3 = s.pc ∧ t.pc = s.pc ∧ SameRegsExcept [0#3, 7#3] s t ∧ SameCellsExcept [] s t := by
  obtain ⟨hregs, hpc, hmem⟩ := exec_trap_after_entry hi h
  obtain ⟨hlink, hentry, -⟩ := s.enterTrap_frame
  refine ⟨(hregs 7#3 (by decide)).trans hlink, hpc, fun r hr => ?_, fun a _ => State.cell_congr hmem a⟩
  obtain ⟨h0, h7⟩ : r ∉ [0#3] ∧ r ∉ [7#3] := by simpa using hr
  exact (hregs r h0).trans (hentry r h7)

/-- Settles O33: each vector's row of the table, and the frame of every TRAP. -/
theorem trapDispatchesOnTheVector : Obligations.TrapDispatchesOnTheVector :=
  ⟨fun s => ⟨TrapRow.getc.exec_eq s, TrapRow.out.exec_eq s, TrapRow.puts.exec_eq s, TrapRow.inp.exec_eq s,
    TrapRow.putsp.exec_eq s, TrapRow.halt.exec_eq s⟩, fun _ _ _ => exec_trap_frame⟩

/-- Settles O32: the dispatch finds none of the six vectors, so the entry is all that happens. -/
theorem unknownVectorWritesR7Only : Obligations.UnknownVectorWritesR7Only := by
  intro s v hv
  have hnone : s.enterTrap.dispatchService v = s.enterTrap := by
    rcases s.enterTrap.dispatchService_cases v with
      ⟨rfl, -⟩ | ⟨rfl, -⟩ | ⟨rfl, -⟩ | ⟨rfl, -⟩ | ⟨rfl, -⟩ | ⟨rfl, -⟩ | ⟨-, h⟩
    case inr.inr.inr.inr.inr.inr => exact h
    all_goals exact absurd hv (by decide)
  obtain ⟨hlink, hregs, hcond, hrest⟩ := s.enterTrap_frame
  exact ⟨s.enterTrap, congrArg Host.Outcome.next hnone, hlink, hcond, hregs, hrest⟩

/-! ### PUTS and PUTSP (R183, R185) -/

/-- The scan that a string call begins, when the first zero cell lies `k` cells after the one R0 names. -/
theorem State.scanString_of_first_zero {s : State} {k : Nat} (hk : k < 65536)
    (hne : ∀ j < k, s.cell (s.reg 0#3 + BitVec.ofNat 16 j) ≠ 0x0000#16)
    (hz : s.cell (s.reg 0#3 + BitVec.ofNat 16 k) = 0x0000#16) :
    s.enterTrap.mem.scanString memCells (s.enterTrap.reg 0#3) =
      ((List.range k).map fun j => s.cell (s.reg 0#3 + BitVec.ofNat 16 j), true) := by
  rw [State.enterTrap_reg_zero]
  exact Memory.scanString_found s.mem (s.reg 0#3) hk hne hz

/-- A string call that meets the terminator sends the cells before it and a flush, and is complete. -/
theorem State.resumeService_of_terminator {s : State} {ws : List Word} (ha : s.activity = .puts ∨ s.activity = .putsp)
    (h : s.mem.scanString memCells (s.reg 0#3) = (ws, true)) :
    s.resumeService = (s.emit (putEvents (ws.flatMap (stringBytes s.activity)) ++ [.flush])).setActivity .idle := by
  rw [← State.flush_putBytes]
  rcases ha with ha | ha <;> simp only [State.resumeService, State.servicePuts, State.servicePutsp, ha, h] <;> rfl

/-- PUTS and PUTSP of a string of `k` cells send each cell's bytes in order and then one flush, link R7, and change nothing
else. -/
theorem exec_of_terminated_string {i : Instr} (hi : i = .puts ∨ i = .putsp) {s : State} {k : Nat} (hk : k < 65536)
    (hne : ∀ j < k, s.cell (s.reg 0#3 + BitVec.ofNat 16 j) ≠ 0x0000#16)
    (hz : s.cell (s.reg 0#3 + BitVec.ofNat 16 k) = 0x0000#16) :
    ∃ t, exec i s = .next t ∧
      t.out = s.out ++ (List.range k).flatMap (fun j =>
        putEvents (stringBytes (s.inStringCall i).activity (s.cell (s.reg 0#3 + BitVec.ofNat 16 j)))) ++ [.flush] ∧
      t.reg 7#3 = s.pc ∧ SameRegsExcept [7#3] s t ∧ t.cond = s.cond ∧ t.pc = s.pc ∧ SameCellsExcept [] s t ∧
      t.kbd = s.kbd ∧ t.rs = s.rs ∧ t.activity = .idle := by
  obtain ⟨hlink, hregs, hcond, hpc, hcells, ⟨hkbd, -⟩, hrs, -⟩ := s.enterTrap_frame
  refine ⟨_, exec_of_string_call hi s, ?_⟩
  rw [State.resumeService_of_terminator (s.inStringCall_activity i) (State.scanString_of_first_zero hk hne hz)]
  refine ⟨?_, hlink, hregs, hcond, hpc, hcells, hkbd, hrs, rfl⟩
  rw [List.flatMap_map, putEvents, List.map_flatMap, List.append_assoc]
  rfl

/-- Settles O37: PUTS sends one byte for each cell. -/
theorem putsSendsTheStringAndFlushes : Obligations.PutsSendsTheStringAndFlushes := by
  intro s k hk hne hz
  obtain ⟨t, ht, hout, hframe⟩ := exec_of_terminated_string (.inl rfl) hk hne hz
  exact ⟨t, ht, by rw [hout, List.map_eq_flatMap]; rfl, hframe⟩

/-- The high byte of a cell is zero exactly if the cell's number is below 256. -/
theorem extractLsb'_high_eq_zero_iff (w : Word) : w.extractLsb' 8 8 = 0x00#8 ↔ w.toNat / 256 = 0 := by
  have hw : w.toNat / 256 < 256 := by omega
  rw [← BitVec.toNat_inj, BitVec.extractLsb'_toNat, Nat.shiftRight_eq_div_pow]
  simp [Nat.mod_eq_of_lt hw]

/-- What PUTSP sends for one cell (R185). -/
theorem putEvents_putspBytes (w : Word) : putEvents (putspBytes w) =
    [.put (w.extractLsb' 0 8)] ++ (if w.toNat / 256 = 0 then [] else [.put (w.extractLsb' 8 8)]) := by
  simp only [putspBytes, extractLsb'_high_eq_zero_iff]
  split <;> rfl

/-- Settles O38: PUTSP sends one or two bytes for each cell. -/
theorem putspSendsTwoCharactersPerCell : Obligations.PutspSendsTwoCharactersPerCell := by
  intro s k hk hne hz
  obtain ⟨t, ht, hout, hframe⟩ := exec_of_terminated_string (.inr rfl) hk hne hz
  refine ⟨t, ht, ?_, hframe⟩
  simp only [← putEvents_putspBytes]
  exact hout

/-! ### GETC and IN (R181, R184) -/

/-- A character is no negative number (10_state.md R28). -/
theorem condOf_zextChar (c : Byte) : condOf (zextChar c) = if c = 0x00#8 then params.flZro else params.flPos := by
  have hzero : zextChar c = 0x0000#16 ↔ c = 0x00#8 := by
    rw [← BitVec.toNat_inj, ← BitVec.toNat_inj, zextChar_toNat]
    rfl
  have hsign : (zextChar c).getLsbD 15 = false := by simp [zextChar]
  rw [condOf, hsign]
  simp only [hzero, Bool.false_eq_true, if_false]

/-- A call that takes its character leaves it in R0, and its flags in COND. -/
theorem State.takeCharacter_result (s : State) (c : Byte) (q : List Byte) :
    ((s.takeCharacter c q).reg 0#3).toNat = c.toNat ∧
      (s.takeCharacter c q).cond = (if c = 0x00#8 then params.flZro else params.flPos) := by
  refine ⟨?_, condOf_zextChar c⟩
  rw [State.takeCharacter, State.setcc_reg, State.reg_setReg_same, zextChar_toNat]

/-- Settles O34: GETC with its character is a TRAP that takes it; without, the entry and the hold. -/
theorem getcTakesACharacterOrHolds : Obligations.GetcTakesACharacterOrHolds := by
  refine fun s => ⟨fun c q hk => ?_, fun hk => ?_⟩
  · have h : exec .getc s = .next ((s.enterTrap.emit []).takeCharacter c q) :=
      congrArg Host.Outcome.next (State.awaitGetc_of_cons (s := s.enterTrap) hk)
    obtain ⟨hlink, hpc, hregs, hcells⟩ := exec_trap_frame rfl h
    obtain ⟨hvalue, hcond⟩ := (s.enterTrap.emit []).takeCharacter_result c q
    exact ⟨_, h, hvalue, hlink, hregs, hcond, hpc, hcells, rfl, List.append_nil _, rfl, rfl⟩
  · obtain ⟨hlink, hregs, hcond, hpc, hcells, hdev, hrs, -⟩ := s.enterTrap_frame
    exact ⟨_, congrArg Host.Outcome.next (State.awaitGetc_of_nil (s := s.enterTrap) hk), hlink, hregs, hcond, hpc, hcells,
      hdev, hrs, rfl⟩

/-- Settles O35: the prompt, and then what GETC does, with the echo of the character that is taken. -/
theorem inPromptsReadsAndEchoes : Obligations.InPromptsReadsAndEchoes := by
  refine fun s => ⟨fun c q hk => ?_, fun hk => ?_⟩
  · have h : exec .inp s =
        .next (((s.enterTrap.putBytes params.inPrompt).emit [.put c, .flush]).takeCharacter c q) :=
      congrArg Host.Outcome.next (State.awaitInput_of_cons (s := s.enterTrap.putBytes params.inPrompt) hk)
    obtain ⟨hlink, hpc, hregs, hcells⟩ := exec_trap_frame rfl h
    obtain ⟨hvalue, hcond⟩ := ((s.enterTrap.putBytes params.inPrompt).emit [.put c, .flush]).takeCharacter_result c q
    exact ⟨_, h, hvalue, hlink, hregs, hcond, hpc, hcells, rfl, rfl, rfl, rfl⟩
  · obtain ⟨hlink, hregs, hcond, hpc, hcells, -, hrs, -⟩ := s.enterTrap_frame
    exact ⟨_, congrArg Host.Outcome.next (State.awaitInput_of_nil (s := s.enterTrap.putBytes params.inPrompt) hk), hlink,
      hregs, hcond, hpc, hcells, hk, rfl, hrs, rfl⟩

/-! ### OUT and HALT (R182, R186) -/

/-- Settles O36: after the entry OUT only sends. -/
theorem outSendsTheLowByteOfR0 : Obligations.OutSendsTheLowByteOfR0 := by
  intro s
  obtain ⟨hlink, hregs, hcond, hpc, hcells, ⟨hkbd, -⟩, hrun⟩ := s.enterTrap_frame
  refine ⟨_, (s.enterTrap.reg 0#3).extractLsb' 0 8, congrArg Host.Outcome.next (State.flush_putBytes _ _), ?_, rfl, hlink,
    hregs, hcond, hpc, hcells, hkbd, hrun⟩
  rw [State.enterTrap_reg_zero, BitVec.extractLsb'_toNat, Nat.shiftRight_zero]

/-- Settles O40: after the entry HALT sends, and writes RS. -/
theorem haltStopsTheMachine : Obligations.HaltStopsTheMachine := by
  intro s
  obtain ⟨hlink, hregs, hcond, hpc, hcells, ⟨hkbd, -⟩, -, hact⟩ := s.enterTrap_frame
  exact ⟨_, rfl, rfl, rfl, hlink, hregs, hcond, hpc, hcells, hkbd, hact⟩

end Sys2Proof.Machine
end

section
/-! The statements about the reserved opcodes and the one exception (spec 46_reserved.md, 60_exceptions.md): what a step that
fetches a reserved opcode leaves is said once, whole, by `step_of_reserved`. -/

namespace Sys2Proof.Machine

/-! ### The DecodeFault (46_reserved.md R200 to R202) -/

/-- The DecodeFault writes RS and nothing else (46 R202). -/
theorem State.raiseDecodeFault_frame (s : State) :
    SameRegsExcept [] s s.raiseDecodeFault ∧ s.raiseDecodeFault.cond = s.cond ∧ s.raiseDecodeFault.pc = s.pc ∧
      SameCellsExcept [] s s.raiseDecodeFault ∧ SameDevices s s.raiseDecodeFault ∧
      s.raiseDecodeFault.activity = s.activity :=
  ⟨fun _ _ => rfl, rfl, rfl, fun _ _ => rfl, ⟨rfl, rfl⟩, rfl⟩

/-- A FAULTED core has no next state (40_cycle.md R130). -/
theorem step_of_faulted {s t : State} (hr : s.rs = .faulted) : step s ≠ .next t := by
  rw [(stoppedCoreTakesNoStep s).2 hr]
  exact nofun

/-- Both reserved opcodes raise the DecodeFault (46 R200, R201). -/
theorem exec_of_reserved {i : Instr} (hi : i = .rti ∨ i = .res) (s : State) : exec i s = .next s.raiseDecodeFault := by
  rcases hi with rfl | rfl <;> rfl

/-- A step that fetches a reserved opcode has done the fetch, and raises the DecodeFault after it. -/
theorem step_of_reserved {s : State} (hr : s.rs = .running) (ha : s.activity = .idle)
    (hi : decode s.fetchedWord = .rti ∨ decode s.fetchedWord = .res) : step s = .next s.afterFetch.raiseDecodeFault := by
  rw [step_of_idle hr ha, exec_of_reserved hi]

/-- Settles O41: the frame of the fault, and what the instruction and the step that raise it answer. -/
theorem decodeFaultSetsFaultedAndNothingElse : Obligations.DecodeFaultSetsFaultedAndNothingElse := by
  refine ⟨fun s => ?_, fun s => ⟨exec_of_reserved (.inl rfl) s, exec_of_reserved (.inr rfl) s⟩, fun s hr ha hi =>
    ⟨_, step_of_reserved hr ha hi, rfl⟩⟩
  obtain ⟨hregs, hcond, hpc, hcells, hdev, hact⟩ := s.raiseDecodeFault_frame
  exact ⟨rfl, hregs, hcond, hpc, hcells, hdev, hact, rfl, fun ⟨_, h⟩ => step_of_faulted rfl h⟩

/-! ### Where it comes from (60_exceptions.md R210, R213) -/

/-- A RUNNING core's step that leaves RS FAULTED is one that fetched a reserved opcode. -/
theorem reserved_of_step_faulted {s t : State} (hr : s.rs = .running) (h : step s = .next t) (ht : t.rs = .faulted) :
    s.activity = .idle ∧ (decode s.fetchedWord = .rti ∨ decode s.fetchedWord = .res) := by
  rcases step_rs h with hsame | ⟨-, -, hhalt, -⟩ | ⟨-, ha, -, hi⟩
  · exact absurd ((ht.symm.trans hsame).trans hr) nofun
  · exact absurd (ht.symm.trans hhalt) nofun
  · exact ⟨ha, hi⟩

/-- After the fetch the fetched word, polled or not, stands in the cell before pc (60 R210). -/
theorem State.offendingWord_afterFetch (s : State) : s.afterFetch.offendingWord = s.fetchedWord := by
  rw [State.offendingWord, State.afterFetch_eq, State.setPc_pc, BitVec.add_sub_cancel]
  rfl

/-- Settles O42: the fault leaves the state as the fetch did, and that holds the word before pc. -/
theorem offendingWordStaysReadable : Obligations.OffendingWordStaysReadable := by
  intro s t _ hr h ht
  obtain ⟨ha, hi⟩ := reserved_of_step_faulted hr h ht
  obtain rfl := Host.Outcome.next.inj ((step_of_reserved hr ha hi).symm.trans h)
  have hword : s.afterFetch.raiseDecodeFault.cell (s.afterFetch.raiseDecodeFault.pc - 1#16) = (s.memRead s.pc).1 :=
    s.offendingWord_afterFetch
  refine ⟨hword, rfl, ?_⟩
  rw [(stoppedCoreTakesNoStep _).2 ht, hword]

/-- The reserved opcodes as numbers (30_encoding.md R107). -/
theorem decode_reserved_iff (w : Word) :
    (decode w = .rti ∨ decode w = .res) ↔ w.toNat / 4096 = 0b1000 ∨ w.toNat / 4096 = 0b1101 := by
  rw [illegalWordsAreTwoRanges w]
  omega

/-- Settles O43: a RUNNING core has a next state, and what it fetched decides whether that is FAULTED. -/
theorem onlyReservedOpcodesFault : Obligations.OnlyReservedOpcodesFault := by
  intro s hr
  obtain ⟨t, h⟩ := step_of_running hr
  refine ⟨t, h, ?_⟩
  rw [← decode_reserved_iff]
  constructor
  · exact reserved_of_step_faulted hr h
  · rintro ⟨ha, hi⟩
    obtain rfl := Host.Outcome.next.inj ((step_of_reserved hr ha hi).symm.trans h)
    rfl

end Sys2Proof.Machine
end

section
/-! The statements about reset, the image loader and the walk from reset to an image (spec 70_reset_and_hazards.md). -/

namespace Sys2Proof.Machine

/-! ### Reset (70_reset_and_hazards.md R240) -/

/-- Settles O54: the core's part of the state is that of the reset state, the devices' part its own. -/
theorem resetPortRestoresTheCoreOnly : Obligations.ResetPortRestoresTheCoreOnly := fun _ =>
  ⟨State.reset_reg, rfl, rfl, rfl, fun _ => rfl, rfl, rfl, rfl⟩

/-! ### The words of an image (R242) -/

/-- An image of `n` bytes has a word for each whole pair. -/
theorem length_imageWords (bs : List Byte) : (imageWords bs).length = bs.length / 2 := by
  induction bs using imageWords.induct with
  | case1 hi lo bs ih => simp only [imageWords, List.length_cons, ih]; omega
  | case2 b => simp [imageWords]
  | case3 => rfl

/-- The word of each whole pair of an image's bytes. -/
theorem getElem?_imageWords {bs : List Byte} {i : Nat} {x y : Byte} (hx : bs[2 * i]? = some x)
    (hy : bs[2 * i + 1]? = some y) : (imageWords bs)[i]? = some (x ++ y) := by
  induction bs using imageWords.induct generalizing i with
  | case1 hi lo bs ih =>
    cases i with
    | zero =>
      obtain rfl := Option.some.inj hx
      obtain rfl := Option.some.inj hy
      rfl
    | succ i => exact ih hx hy
  | case2 b => exact absurd hy (by simp)
  | case3 => exact absurd hy (by simp)

/-- Two bytes as a word are a big-endian number. -/
theorem toNat_byte_append (x y : Byte) : (x ++ y : Word).toNat = x.toNat * 256 + y.toNat := by
  rw [BitVec.toNat_append, ← Nat.shiftLeft_add_eq_or_of_lt y.isLt, Nat.shiftLeft_eq]

/-! ### The loader (R242) -/

/-- Loading words keeps the canonical form. -/
theorem loadWords_wf {m : Memory} (hm : m.wf = true) (a : Nat) (ws : List Word) : (loadWords m a ws).wf = true := by
  induction ws generalizing m a with
  | nil => exact hm
  | cons w ws ih =>
    rw [loadWords]
    split
    · exact ih (Memory.write_wf w (by omega) hm) (a + 1)
    · exact hm

/-- Loading words leaves every cell before them, behind them and past 0xFFFF. -/
theorem read_loadWords_outside (m : Memory) {a b : Nat} {ws : List Word}
    (h : b < a ∨ a + ws.length ≤ b ∨ 0xFFFF < b) : (loadWords m a ws).read b = m.read b := by
  induction ws generalizing m a with
  | nil => rfl
  | cons w ws ih =>
    rw [List.length_cons] at h
    rw [loadWords]
    split
    · rw [ih _ (by omega), Memory.read_write_ne w (by omega)]
    · rfl

/-- Each loaded word stands in its cell, if that exists. -/
theorem read_loadWords {m : Memory} (hm : m.wf = true) {a i : Nat} {w : Word} {ws : List Word}
    (hw : ws[i]? = some w) (h : a + i ≤ 0xFFFF) : (loadWords m a ws).read (a + i) = w := by
  induction ws generalizing m a i with
  | nil => exact absurd hw nofun
  | cons v ws ih =>
    rw [loadWords, if_pos (by omega)]
    cases i with
    | zero =>
      obtain rfl := Option.some.inj hw
      rw [read_loadWords_outside _ (.inl (by omega)), Nat.add_zero, Memory.read_write_same v hm]
    | succ i =>
      have hcell : a + 1 + i = a + (i + 1) := by omega
      rw [← hcell]
      exact ih (Memory.write_wf v (by omega) hm) hw (by omega)

/-- An image with an origin loads: its words go to the cells from the origin on. -/
theorem loadImage_of_origin (m : Memory) (hi lo : Byte) (body : List Byte) :
    loadImage m (hi :: lo :: body) = some (loadWords m (hi.toNat * 256 + lo.toNat) (imageWords body)) := by
  rw [← toNat_byte_append]
  rfl

/-- An image without an origin does not load. -/
theorem loadImage_of_short (m : Memory) {bytes : List Byte} (h : bytes.length < 2) : loadImage m bytes = none := by
  match bytes, h with
  | [], _ => rfl
  | [_], _ => rfl

/-- Settles O55: the image's words are its byte pairs, and they are loaded from the origin on. -/
theorem loaderPlacesTheImage : Obligations.LoaderPlacesTheImage := by
  refine fun m hm => ⟨fun hi lo body => ⟨_, loadImage_of_origin m hi lo body, loadWords_wf hm _ _, ?_, ?_⟩,
    fun _ => loadImage_of_short m⟩
  · intro i x y hx hy h
    rw [read_loadWords hm (getElem?_imageWords hx hy) h, toNat_byte_append]
  · intro a ha
    rw [← length_imageWords] at ha
    exact read_loadWords_outside m ha

/-! ### Launch (R241, R243) -/

/-- An image that loads keeps the canonical form. -/
theorem loadImage_wf {m m' : Memory} {bytes : List Byte} (hm : m.wf = true) (h : loadImage m bytes = some m') :
    m'.wf = true := by
  rw [loadImage] at h
  split at h
  · cases h
  · obtain rfl := Option.some.inj h
    exact loadWords_wf hm _ _

/-- So do several. -/
theorem loadImages_wf {m m' : Memory} {images : List (List Byte)} (hm : m.wf = true)
    (h : loadImages m images = some m') : m'.wf = true := by
  induction images generalizing m with
  | nil => exact Option.some.inj h ▸ hm
  | cons image images ih =>
    obtain ⟨m₁, h₁, h⟩ := Option.bind_eq_some_iff.1 h
    exact ih (loadImage_wf hm h₁) h

/-- The reset state meets the invariant with any canonical memory. -/
theorem State.reset_setMem_inv {m : Memory} (hm : m.wf = true) : (State.reset.setMem m).Inv := ⟨hm, rfl, fun _ => rfl⟩

/-- Settles O51: a launch state is the reset state with a memory that loads have left canonical. -/
theorem launchStatesMeetTheInvariant : Obligations.LaunchStatesMeetTheInvariant := by
  refine ⟨State.reset_setMem_inv (m := []) rfl, fun images s h => ?_⟩
  obtain ⟨m, hm, rfl⟩ := Option.map_eq_some_iff.1 h
  exact State.reset_setMem_inv (loadImages_wf (m := []) rfl hm)

/-! ### The walk over zero cells (R244) -/

/-- The word 0x0000 is a BR with an empty mask. -/
theorem decode_zero : decode 0x0000#16 = .br false false false 0 := by decide

/-- A step over a zero cell increments pc and does nothing else. -/
theorem step_of_zero_cell {s : State} (hr : s.rs = .running) (ha : s.activity = .idle) (hpc : s.pc ≠ params.kbsrAddr)
    (hz : s.cell s.pc = 0x0000#16) : step s = .next (s.setPc (s.pc + 1#16)) := by
  rw [step_of_idle hr ha, State.fetchedWord_of_ne hpc, hz, decode_zero, State.afterFetch_of_ne hpc, exec_br,
    branchTaken_empty_mask]
  rfl

/-- A walk over zero cells below the status cell, from any cell on. -/
theorem run_of_zero_cells {s : State} (hr : s.rs = .running) (ha : s.activity = .idle) {k n : Nat} (hn : k + n ≤ 0xFE00)
    (hz : ∀ a < k + n, s.mem.read a = 0x0000#16) :
    core.run n (s.setPc (BitVec.ofNat 16 k)) = .next (s.setPc (BitVec.ofNat 16 (k + n))) := by
  induction n generalizing k with
  | zero => rfl
  | succ n ih =>
    have hk : (BitVec.ofNat 16 k).toNat = k := by rw [BitVec.toNat_ofNat]; omega
    have hne : BitVec.ofNat 16 k ≠ params.kbsrAddr := fun h => by
      have : k = 0xFE00 := hk.symm.trans (congrArg BitVec.toNat h)
      omega
    have hcell : s.mem.read (BitVec.ofNat 16 k).toNat = 0x0000#16 := by rw [hk]; exact hz k (by omega)
    have hstep : step (s.setPc (BitVec.ofNat 16 k)) = .next (s.setPc (BitVec.ofNat 16 (k + 1))) := by
      rw [step_of_zero_cell (s := s.setPc (BitVec.ofNat 16 k)) hr ha hne hcell, BitVec.ofNat_add]
      rfl
    have hnext : k + 1 + n = k + (n + 1) := by omega
    calc core.run (n + 1) (s.setPc (BitVec.ofNat 16 k))
      _ = core.run n (s.setPc (BitVec.ofNat 16 (k + 1))) := run_succ_of_step (M := core) hstep n
      _ = .next (s.setPc (BitVec.ofNat 16 (k + (n + 1)))) := by
        rw [ih (hnext.trans_le hn) fun a h => hz a (hnext ▸ h), hnext]

/-- Settles O56: the reset state's pc is 0, and it walks from there. -/
theorem zeroCellsAreWalkedOver : Obligations.ZeroCellsAreWalkedOver := by
  intro m n hn hz
  have h := run_of_zero_cells (s := State.reset.setMem m) (k := 0) rfl rfl (by omega) (by simpa using hz) (n := n)
  rw [Nat.zero_add] at h
  exact h

end Sys2Proof.Machine
end

section
/-! The statement about sample words (spec 95_test_vectors.md 2.1). -/

namespace Sys2Proof.Machine

/-- Settles O4: the decoder run on each listed word. -/
theorem sampleWordsDecode : Obligations.SampleWordsDecode := by
  unfold Obligations.SampleWordsDecode
  decide

end Sys2Proof.Machine
end
